-- ==== Sys2Proof/Word.lean ====
section
/-!
DEFINITION. The two word types of the zzvm CORE: bytes of memory and the 16-bit values held in registers and used
as addresses (00_scope.md R5, R7; 10_state.md R20; 20_memory.md R51).
-/
namespace Sys2Proof

/-- One byte of memory (20_memory.md R50). -/
abbrev Byte := BitVec 8

/-- A 16-bit unsigned value: a register's contents, an address, an immediate (00_scope.md R5). -/
abbrev Word := BitVec 16

end Sys2Proof
end

