-- ==== Sys2Proof/Config.lean ====
section
/-!
DEFINITION. The open parameters of the spec that the engine depends on (00_scope.md R6) and its free values. The
parameters an instruction reads are gathered in `Config`, which the state carries so that a claim about every state
is a claim about every value of them (log entry 6). The parameters of the image format and of the disassembler are
arguments of those functions (Machine/Image.lean, Machine/Disasm.lean).
-/
namespace Sys2Proof

/-- `NotOp`: what `NOT` computes (41_alu.md R154, D6). -/
inductive NotOp where
  | bitwise
  | logical
  deriving DecidableEq, Repr, Inhabited

/-- `PushSpValue`: what `PUSH SP` stores (44_stack.md R232, D7). -/
inductive PushSpValue where
  /-- the decremented `SP` -/
  | new
  /-- the value `SP` had before the instruction -/
  | old
  deriving DecidableEq, Repr, Inhabited

/-- `PopSpResult`: what `POP SP` leaves in `SP` (44_stack.md R231, D8). -/
inductive PopSpResult where
  | loadedPlus2
  | loaded
  deriving DecidableEq, Repr, Inhabited

/-- `TopWordAccess`: a 2-byte data access at 0xFFFF (20_memory.md R55, D9). -/
inductive TopWordAccess where
  | wrap
  | fault
  deriving DecidableEq, Repr, Inhabited

/-- The four open parameters that an instruction's effect depends on (00_scope.md R6). No step changes them. -/
structure Config where
  notOp         : NotOp
  pushSpValue   : PushSpValue
  popSpResult   : PopSpResult
  topWordAccess : TopWordAccess
  deriving DecidableEq, Repr, Inhabited

/-- The default the spec names for each of the four (00_scope.md R6). DESIGN CHOICE, log entry 6: `State.reset`
carries these values; a claim about every state does not rest on them. -/
def Config.specDefaults : Config :=
  { notOp := .bitwise, pushSpValue := .new, popSpResult := .loadedPlus2, topWordAccess := .wrap }

/-- One outcome of a read of standard input: a byte, or a failure (end of input is a failure; D14). -/
inductive ReadOutcome where
  | byte (b : Byte)
  | failure
  deriving DecidableEq, Repr, Inhabited

/-- One outcome of a write to standard output (D14). -/
inductive WriteOutcome where
  | success
  | failure
  deriving DecidableEq, Repr, Inhabited

/-- FREE VALUE: `Seed`, the initial PRNG state, a draw at create (45_system.md R262, D12; log entry 3). -/
opaque Config.seed : BitVec 64

/-- FREE VALUE: `StdinOracle`, the outcome of the n-th read that the host's supplied outcomes do not cover
(45_system.md R255, D14; log entry 4). -/
opaque Config.stdinOracle : Nat → ReadOutcome

/-- FREE VALUE: `StdoutOracle`, the outcome of the n-th write that the host's supplied outcomes do not cover
(45_system.md R258, D14; log entry 4). -/
opaque Config.stdoutOracle : Nat → WriteOutcome

end Sys2Proof
end

