-- ==== Sys2Proof/Syntax.lean ====
section
/-!
DEFINITION. The syntax of the zzvm CORE: the eight registers (10_state.md R21), the raw fields of an instruction word
(30_encoding.md R80, R81), and the instructions, one constructor for each row of spec/opcode_table.json
(30_encoding.md R91). An instruction holds the fields its opcode reads and no others (30_encoding.md R92).
-/
namespace Sys2Proof

/-- The eight registers, in the order of their indices 0 to 7 (10_state.md R21). -/
inductive Reg where
  | ra | r1 | r2 | r3 | r4 | r5 | sp | ip
  deriving DecidableEq, Repr, Inhabited

/-- The fields of an instruction word, before any check (30_encoding.md R80, R81). -/
structure RawInstr where
  opcode : BitVec 8
  dst    : BitVec 4
  src    : BitVec 4
  imm    : Word
  deriving DecidableEq, Repr, Inhabited

/-- The instructions (30_encoding.md R91). `dst`, `src` and `third` (the spec's `r3`) are the registers those fields
select; `imm` is the whole 16-bit immediate. -/
inductive Instr where
  | nop
  | neg  (dst src : Reg)
  | addr (dst src third : Reg)
  | addi (dst src : Reg) (imm : Word)
  | mulr (dst src third : Reg)
  | muli (dst src : Reg) (imm : Word)
  | andr (dst src third : Reg)
  | andi (dst src : Reg) (imm : Word)
  | orr  (dst src third : Reg)
  | ori  (dst src : Reg) (imm : Word)
  | xorr (dst src third : Reg)
  | xori (dst src : Reg) (imm : Word)
  | shrr (dst src third : Reg)
  | shri (dst src : Reg) (imm : Word)
  | not  (dst src : Reg)
  | ld   (dst src : Reg) (imm : Word)
  | st   (dst src : Reg) (imm : Word)
  | hlt
  | movr (dst src : Reg)
  | movi (dst : Reg) (imm : Word)
  | jei  (dst src : Reg) (imm : Word)
  | jni  (dst src : Reg) (imm : Word)
  | jgi  (dst src : Reg) (imm : Word)
  | jzi  (dst : Reg) (imm : Word)
  | call (imm : Word)
  | ret
  | pop  (dst : Reg)
  | push (dst : Reg)
  | pusi (imm : Word)
  | sys
  | rand
  deriving DecidableEq, Repr, Inhabited

/-- The operand shapes; the number in the spec's name counts operands (30_encoding.md R90, D3). -/
inductive Shape where
  | s0 | s1r | s2r | s3r | s1i | s2ri | s3ri | s2rj | s3rj
  deriving DecidableEq, Repr, Inhabited

/-- One operand as the disassembler sees it: a register, a 16-bit literal, or a displacement relative to the next
instruction (46_disassembler.md R283 to R285). -/
inductive Operand where
  | reg (r : Reg)
  | imm (v : Word)
  | rel (v : Word)
  deriving DecidableEq, Repr, Inhabited

end Sys2Proof
end

