-- ==== Sys2Proof/WellFormed.lean ====
section
/-!
DEFINITION. Well-formedness of the raw fields of an instruction word: the three checks of 30_encoding.md R93. An
`Instr` needs no check of its own: its registers are of the closed type `Reg`, so an instruction that names register
8 to 15 cannot be written (Laws/PerInstr.lean proves that every instruction's fields pass the checks).
-/
namespace Sys2Proof

/-- The `dst` field names one of the eight registers (10_state.md R24). -/
def RawInstr.dstValid (f : RawInstr) : Bool := decide (f.dst.toNat < 8)

/-- The `src` field names one of the eight registers (10_state.md R24). -/
def RawInstr.srcValid (f : RawInstr) : Bool := decide (f.src.toNat < 8)

/-- The opcode is in the closed table 0x00 to 0x1E (30_encoding.md R93). -/
def RawInstr.opcodeKnown (f : RawInstr) : Bool := decide (f.opcode.toNat ≤ 0x1E)

/-- The word of these fields is a legal instruction (30_encoding.md R93). -/
def RawInstr.wellFormed (f : RawInstr) : Bool := f.dstValid && f.srcValid && f.opcodeKnown

end Sys2Proof
end

