-- ==== Sys2Proof/Decode.lean ====
section
/-!
DEFINITION. Decoding and encoding (30_encoding.md R80 to R93), written from the encoding tables of the spec, and the
tables the disassembler shares with the engine (30_encoding.md R88, R90, R91). Pure data shape: nothing here reads or
writes machine state (30_encoding.md R89).
-/
namespace Sys2Proof

/-- The two verdicts on an illegal word (30_encoding.md R88). -/
inductive Reject where
  /-- `dst` or `src` is 8 or more (40_cycle.md R122) -/
  | invalidRegister
  /-- the opcode is not in the table (40_cycle.md R123) -/
  | invalidInstruction
  deriving DecidableEq, Repr, Inhabited

/-! ## Registers and fields -/

/-- The index of a register (10_state.md R21). -/
def Reg.toField : Reg → BitVec 4
  | .ra => 0 | .r1 => 1 | .r2 => 2 | .r3 => 3 | .r4 => 4 | .r5 => 5 | .sp => 6 | .ip => 7

/-- The register of a 4-bit field; none for 8 to 15 (10_state.md R24). -/
def Reg.ofField (f : BitVec 4) : Option Reg :=
  match f.toNat with
  | 0 => some .ra
  | 1 => some .r1
  | 2 => some .r2
  | 3 => some .r3
  | 4 => some .r4
  | 5 => some .r5
  | 6 => some .sp
  | 7 => some .ip
  | _ => none

/-- `r3`: the register of the low 3 bits of `imm`, always valid (30_encoding.md R81, 10_state.md R24). -/
def thirdReg (imm : Word) : Reg :=
  match imm.toNat % 8 with
  | 0 => .ra
  | 1 => .r1
  | 2 => .r2
  | 3 => .r3
  | 4 => .r4
  | 5 => .r5
  | 6 => .sp
  | _ => .ip

/-- The four instruction bytes, in memory order, as one little-endian word (30_encoding.md R80). -/
def wordOfBytes (b0 b1 b2 b3 : Byte) : BitVec 32 := b3 ++ b2 ++ b1 ++ b0

/-- The four bytes of an instruction word, in memory order (30_encoding.md R80, R87). -/
def bytesOfWord (w : BitVec 32) : List Byte :=
  [w.extractLsb' 0 8, w.extractLsb' 8 8, w.extractLsb' 16 8, w.extractLsb' 24 8]

/-- Field extraction (30_encoding.md R81). -/
def RawInstr.ofWord (w : BitVec 32) : RawInstr :=
  { opcode := w.extractLsb' 0 8, dst := w.extractLsb' 12 4, src := w.extractLsb' 8 4, imm := w.extractLsb' 16 16 }

/-- The word of the fields, the inverse of `RawInstr.ofWord` (30_encoding.md R87). -/
def RawInstr.toWord (f : RawInstr) : BitVec 32 := f.imm ++ f.dst ++ f.src ++ f.opcode

/-! ## Decoding -/

/-- The instruction of an opcode with its fields; none for an opcode outside the table (30_encoding.md R91). -/
def Instr.ofOpcode (opcode : BitVec 8) (dst src : Reg) (imm : Word) : Option Instr :=
  match opcode.toNat with
  | 0x00 => some .nop
  | 0x01 => some (.neg dst src)
  | 0x02 => some (.addr dst src (thirdReg imm))
  | 0x03 => some (.addi dst src imm)
  | 0x04 => some (.mulr dst src (thirdReg imm))
  | 0x05 => some (.muli dst src imm)
  | 0x06 => some (.andr dst src (thirdReg imm))
  | 0x07 => some (.andi dst src imm)
  | 0x08 => some (.orr dst src (thirdReg imm))
  | 0x09 => some (.ori dst src imm)
  | 0x0A => some (.xorr dst src (thirdReg imm))
  | 0x0B => some (.xori dst src imm)
  | 0x0C => some (.shrr dst src (thirdReg imm))
  | 0x0D => some (.shri dst src imm)
  | 0x0E => some (.not dst src)
  | 0x0F => some (.ld dst src imm)
  | 0x10 => some (.st dst src imm)
  | 0x11 => some .hlt
  | 0x12 => some (.movr dst src)
  | 0x13 => some (.movi dst imm)
  | 0x14 => some (.jei dst src imm)
  | 0x15 => some (.jni dst src imm)
  | 0x16 => some (.jgi dst src imm)
  | 0x17 => some (.jzi dst imm)
  | 0x18 => some (.call imm)
  | 0x19 => some .ret
  | 0x1A => some (.pop dst)
  | 0x1B => some (.push dst)
  | 0x1C => some (.pusi imm)
  | 0x1D => some .sys
  | 0x1E => some .rand
  | _ => none

/-- The checks of steps 3 and 4 in their order: the register fields first, then the opcode (40_cycle.md R122, R123;
30_encoding.md R93). -/
def Instr.ofRaw (f : RawInstr) : Except Reject Instr :=
  match Reg.ofField f.dst, Reg.ofField f.src with
  | some dst, some src =>
    match Instr.ofOpcode f.opcode dst src f.imm with
    | some i => .ok i
    | none => .error .invalidInstruction
  | _, _ => .error .invalidRegister

/-- Decoding, total on any four bytes read as one word (30_encoding.md R88). -/
def decode (w : BitVec 32) : Except Reject Instr := Instr.ofRaw (RawInstr.ofWord w)

/-! ## Encoding -/

/-- The opcode of an instruction (30_encoding.md R91). -/
def Instr.opcode : Instr → BitVec 8
  | .nop => 0x00
  | .neg .. => 0x01
  | .addr .. => 0x02
  | .addi .. => 0x03
  | .mulr .. => 0x04
  | .muli .. => 0x05
  | .andr .. => 0x06
  | .andi .. => 0x07
  | .orr .. => 0x08
  | .ori .. => 0x09
  | .xorr .. => 0x0A
  | .xori .. => 0x0B
  | .shrr .. => 0x0C
  | .shri .. => 0x0D
  | .not .. => 0x0E
  | .ld .. => 0x0F
  | .st .. => 0x10
  | .hlt => 0x11
  | .movr .. => 0x12
  | .movi .. => 0x13
  | .jei .. => 0x14
  | .jni .. => 0x15
  | .jgi .. => 0x16
  | .jzi .. => 0x17
  | .call .. => 0x18
  | .ret => 0x19
  | .pop .. => 0x1A
  | .push .. => 0x1B
  | .pusi .. => 0x1C
  | .sys => 0x1D
  | .rand => 0x1E

/-- The `dst` field of an instruction's encoding; zero where the opcode does not read it (30_encoding.md R87). -/
def Instr.dstField : Instr → BitVec 4
  | .neg d _ | .addr d _ _ | .addi d _ _ | .mulr d _ _ | .muli d _ _ | .andr d _ _ | .andi d _ _ | .orr d _ _
  | .ori d _ _ | .xorr d _ _ | .xori d _ _ | .shrr d _ _ | .shri d _ _ | .not d _ | .ld d _ _ | .st d _ _
  | .movr d _ | .movi d _ | .jei d _ _ | .jni d _ _ | .jgi d _ _ | .jzi d _ | .pop d | .push d => d.toField
  | .nop | .hlt | .call _ | .ret | .pusi _ | .sys | .rand => 0

/-- The `src` field of an instruction's encoding; zero where the opcode does not read it (30_encoding.md R87). -/
def Instr.srcField : Instr → BitVec 4
  | .neg _ a | .addr _ a _ | .addi _ a _ | .mulr _ a _ | .muli _ a _ | .andr _ a _ | .andi _ a _ | .orr _ a _
  | .ori _ a _ | .xorr _ a _ | .xori _ a _ | .shrr _ a _ | .shri _ a _ | .not _ a | .ld _ a _ | .st _ a _
  | .movr _ a | .jei _ a _ | .jni _ a _ | .jgi _ a _ => a.toField
  | .nop | .hlt | .movi .. | .jzi .. | .call _ | .ret | .pop _ | .push _ | .pusi _ | .sys | .rand => 0

/-- The `imm` field of an instruction's encoding: the immediate, or the third register's index in its low 3 bits;
zero where the opcode does not read it (30_encoding.md R82, R87). -/
def Instr.immField : Instr → Word
  | .addr _ _ c | .mulr _ _ c | .andr _ _ c | .orr _ _ c | .xorr _ _ c | .shrr _ _ c => c.toField.zeroExtend 16
  | .addi _ _ v | .muli _ _ v | .andi _ _ v | .ori _ _ v | .xori _ _ v | .shri _ _ v | .ld _ _ v | .st _ _ v
  | .movi _ v | .jei _ _ v | .jni _ _ v | .jgi _ _ v | .jzi _ v | .call v | .pusi v => v
  | .nop | .neg .. | .not .. | .hlt | .movr .. | .ret | .pop _ | .push _ | .sys | .rand => 0

/-- The raw fields of an instruction's encoding (30_encoding.md R87). -/
def Instr.toRaw (i : Instr) : RawInstr :=
  { opcode := i.opcode, dst := i.dstField, src := i.srcField, imm := i.immField }

/-- The encoder (30_encoding.md R87). -/
def encode (i : Instr) : BitVec 32 := i.toRaw.toWord

/-! ## The shared shape table and assembly helpers -/

/-- The shape table the engine and the disassembler share (30_encoding.md R91). -/
def Instr.shape : Instr → Shape
  | .nop | .hlt | .ret | .sys | .rand => .s0
  | .pop _ | .push _ => .s1r
  | .neg .. | .not .. | .movr .. => .s2r
  | .addr .. | .mulr .. | .andr .. | .orr .. | .xorr .. | .shrr .. => .s3r
  | .call _ | .pusi _ => .s1i
  | .movi .. => .s2ri
  | .addi .. | .muli .. | .andi .. | .ori .. | .xori .. | .shri .. | .ld .. | .st .. => .s3ri
  | .jzi .. => .s2rj
  | .jei .. | .jni .. | .jgi .. => .s3rj

/-- Whether the opcodes of a shape read `dst` (30_encoding.md R90). -/
def Shape.readsDst : Shape → Bool
  | .s0 | .s1i => false
  | .s1r | .s2r | .s3r | .s2ri | .s3ri | .s2rj | .s3rj => true

/-- Whether the opcodes of a shape read `src` (30_encoding.md R90). -/
def Shape.readsSrc : Shape → Bool
  | .s0 | .s1r | .s1i | .s2ri | .s2rj => false
  | .s2r | .s3r | .s3ri | .s3rj => true

/-- Whether the opcodes of a shape read only `imm[2:0]`, as a register index (30_encoding.md R90). -/
def Shape.readsThird : Shape → Bool
  | .s3r => true
  | .s0 | .s1r | .s2r | .s1i | .s2ri | .s3ri | .s2rj | .s3rj => false

/-- Whether the opcodes of a shape read the whole `imm` (30_encoding.md R90). -/
def Shape.readsImm : Shape → Bool
  | .s1i | .s2ri | .s3ri | .s2rj | .s3rj => true
  | .s0 | .s1r | .s2r | .s3r => false

/-- The address a taken branch or `CALL` at `a` continues at (30_encoding.md R83). -/
def relativeTarget (a imm : Word) : Word := a + imm + 4

/-- The immediate that reaches target `t` from address `a` (30_encoding.md R96). -/
def relativeImm (a t : Word) : Word := t - (a + 4)

/-- The pseudo-instruction `JMP t` at address `a` (30_encoding.md R97). -/
def Instr.jmp (a t : Word) : Instr := .addi .ip .ip (relativeImm a t)

/-! ## The host's way in -/

/-- The instruction the decoder reads from an instruction whose bits are `w`, bit 0 the least significant bit of the
first byte; bits at or above `nbits` are zero. The four bytes are laid out in memory order and given to the decoder
(30_encoding.md R80). -/
def decodeTableWord (nbits w : Nat) : Option Instr :=
  match bytesOfWord (BitVec.ofNat 32 (w % 2 ^ nbits)) with
  | [b0, b1, b2, b3] =>
    match decode (wordOfBytes b0 b1 b2 b3) with
    | .ok i => some i
    | .error _ => none
  | _ => none

end Sys2Proof
end

