-- ==== Sys2Proof/Machine/State.lean ====
section
/-!
DEFINITION. The state of one VM (10_state.md R32), as plain data, its value after create (10_state.md R35, 70 R400),
and the reasons a step or a host operation can stop (60_exceptions.md R362).
-/
namespace Sys2Proof.Machine

/-- The register file (10_state.md R20, R21): eight 16-bit registers, one home each (R25). -/
structure Regs where
  ra : Word
  r1 : Word
  r2 : Word
  r3 : Word
  r4 : Word
  r5 : Word
  sp : Word
  ip : Word
  deriving DecidableEq, Repr, Inhabited

/-- Memory: the cells that differ from what an unlisted address reads as, by strictly rising address
(20_memory.md R50; log entry 2). -/
abbrev Memory := List Host.Cell

/-- The lifecycle of the handle (10_state.md R30). -/
inductive Life where
  | sleeping
  | executing
  | freed
  deriving DecidableEq, Repr, Inhabited

/-- The bound syscall handler (10_state.md R31): the default one, or one the host registered, named by a number. What
a registered handler computes is `Config.syscallHandler` (log entry 7). -/
inductive Handler where
  | default
  | registered (id : Nat)
  deriving DecidableEq, Repr, Inhabited

/-- What a handler receives and may return changed (45_system.md R252, R253). -/
structure Context where
  regs : Regs
  mem  : Memory
  prng : BitVec 64
  deriving DecidableEq, Repr, Inhabited

/-- The default handler's device, the platform's only I/O (45_system.md R257 to R259, 10_state.md R34, D14;
log entry 4). -/
structure StdIo where
  /-- outcomes of reads the host has already supplied, oldest first -/
  stdin        : List ReadOutcome
  /-- how many outcomes have been drawn from `Config.stdinOracle` -/
  reads        : Nat
  /-- outcomes of writes the host has already supplied, oldest first -/
  writeResults : List WriteOutcome
  /-- how many outcomes have been drawn from `Config.stdoutOracle` -/
  writes       : Nat
  /-- the bytes delivered to standard output, oldest first -/
  stdout       : List Byte
  deriving DecidableEq, Repr, Inhabited

/-- The whole state of one VM (10_state.md R32), with the device of its default handler and the model's own fields
`halted` (log entry 5) and `cfg` (log entry 6). -/
structure State where
  regs   : Regs
  mem    : Memory
  prng   : BitVec 64
  life   : Life
  sys    : Handler
  io     : StdIo
  /-- the last run ended at an `HLT`: R126's `Halt(vm')` as against `Continue(vm')` -/
  halted : Bool
  /-- the open parameters an instruction reads -/
  cfg    : Config
  deriving DecidableEq, Repr, Inhabited

/-- Why a step stops: the three fault reasons a step can raise (40_cycle.md R126). The state is then as it was before
the step (60_exceptions.md R361). All three are the spec's own reasons, so stopping is safe. -/
inductive Fault where
  /-- raised by the fetch when `IP > 0xFFFC` (40_cycle.md R120), and by a 2-byte data access at 0xFFFF under
  `TopWordAccess = fault` (20_memory.md R55); safe -/
  | outOfBounds
  /-- raised by the check of `dst` and `src` (40_cycle.md R122); safe -/
  | invalidRegister
  /-- raised by dispatch on an opcode outside the table (40_cycle.md R123); safe -/
  | invalidInstruction
  deriving DecidableEq, Repr, Inhabited

/-- Why the model gives no meaning. -/
inductive Refusal where
  /-- an instruction the model has no meaning for yet, raised by an arm of `exec`; safe. No arm raises it. -/
  | notModelled (mnemonic : String)
  deriving DecidableEq, Repr, Inhabited

/-- The stop reasons of `execute` and the errors of the host operations (60_exceptions.md R362). -/
inductive StopReason where
  | outOfBounds
  | invalidRegister
  | invalidInstruction
  | invalidState
  | halt
  | decodeError
  | ioError
  | budgetExhausted
  deriving DecidableEq, Repr, Inhabited

/-- The values create draws (10_state.md R35): `ResetRegs`, `ResetMem`, `Seed`, and the host's side of the default
handler's device. -/
structure ResetDraws where
  ra   : Word
  r1   : Word
  r2   : Word
  r3   : Word
  r4   : Word
  r5   : Word
  ip   : Word
  mem  : Memory
  seed : BitVec 64
  io   : StdIo
  deriving DecidableEq, Repr, Inhabited

/-- `create()`, the machine's only reset, from the values it draws and the open parameters (70_reset_and_hazards.md
R400, 10_state.md R35). -/
def State.create (d : ResetDraws) (cfg : Config) : State :=
  { regs := { ra := d.ra, r1 := d.r1, r2 := d.r2, r3 := d.r3, r4 := d.r4, r5 := d.r5, sp := 0xFFF0, ip := d.ip }
    mem := d.mem
    prng := d.seed
    life := .sleeping
    sys := .default
    io := d.io
    halted := false
    cfg := cfg }

/-- The draws `State.reset` names. DESIGN CHOICE: the spec gives none of these values (D10, D11, D12, D14; log entries
1 to 4). -/
def ResetDraws.named : ResetDraws :=
  { ra := 0, r1 := 0, r2 := 0, r3 := 0, r4 := 0, r5 := 0, ip := 0, mem := [], seed := Config.seed
    io := { stdin := [], reads := 0, writeResults := [], writes := 0, stdout := [] } }

/-- The machine right after create (10_state.md R35), on the draws the log names and the spec's default parameters. -/
def State.reset : State := State.create ResetDraws.named Config.specDefaults

end Sys2Proof.Machine

namespace Sys2Proof.Config

/-- FREE VALUE: `SyscallHandler`, what the registered handler of a number makes of the context it is given, and its
16-bit result (45_system.md R252, D13; log entry 7). -/
opaque syscallHandler : Nat → Machine.Context → Machine.Context × Word

end Sys2Proof.Config
end

