-- ==== Sys2Proof/Machine/Ops.lean ====
section
/-!
DEFINITION. The named operations over memory and registers, the fetch, the end of an instruction, and raising a fault
(20_memory.md, 40_cycle.md R120 to R124, 00_scope.md R10, R11). Every meaning reads and writes the state through these.
-/
namespace Sys2Proof.Machine

/-! ## Memory as a list of cells -/

/-- What an address with no cell reads as (log entry 2). -/
def Memory.unlisted : Byte := 0

/-- The canonical form from address `lo` on: addresses strictly rising, inside the 64 KiB, no cell equal to what an
unlisted address reads as. -/
def Memory.wfFrom : Nat → Memory → Bool
  | _, [] => true
  | lo, (k, v) :: rest =>
    decide (lo ≤ k) && decide (k < 0x10000) && decide (v ≠ Memory.unlisted) && Memory.wfFrom (k + 1) rest

/-- The canonical form of memory. -/
def Memory.wf (m : Memory) : Bool := Memory.wfFrom 0 m

/-- The byte at an address (20_memory.md R50). -/
def Memory.read : Memory → Nat → Byte
  | [], _ => Memory.unlisted
  | (k, v) :: rest, a => if a = k then v else Memory.read rest a

/-- Writing a byte, keeping the canonical form. -/
def Memory.write : Memory → Nat → Byte → Memory
  | [], a, b => if b = Memory.unlisted then [] else [(a, b)]
  | (k, v) :: rest, a, b =>
    if a < k then (if b = Memory.unlisted then (k, v) :: rest else (a, b) :: (k, v) :: rest)
    else if a = k then (if b = Memory.unlisted then rest else (a, b) :: rest)
    else (k, v) :: Memory.write rest a b

/-- The memory that cells in any order stand for, in canonical form: each cell written in turn. It makes a memory of
whatever list a registered handler returns, and leaves a canonical memory as it is. -/
def Memory.canon (m : Memory) : Memory :=
  m.foldl (fun acc c => Memory.write acc (c.1 % 0x10000) c.2) []

/-! ## The register file, through one accessor (10_state.md R25) -/

/-- Read a register of the file. -/
def Regs.get (x : Regs) : Reg → Word
  | .ra => x.ra | .r1 => x.r1 | .r2 => x.r2 | .r3 => x.r3 | .r4 => x.r4 | .r5 => x.r5 | .sp => x.sp | .ip => x.ip

/-- Write a register of the file. No register is hardwired (10_state.md R23). -/
def Regs.set (x : Regs) (r : Reg) (v : Word) : Regs :=
  match r with
  | .ra => { x with ra := v }
  | .r1 => { x with r1 := v }
  | .r2 => { x with r2 := v }
  | .r3 => { x with r3 := v }
  | .r4 => { x with r4 := v }
  | .r5 => { x with r5 := v }
  | .sp => { x with sp := v }
  | .ip => { x with ip := v }

/-- `x[r]` (00_scope.md R9). -/
def State.reg (s : State) (r : Reg) : Word := s.regs.get r

/-- `x[r] <- v` (00_scope.md R9). -/
def State.setReg (s : State) (r : Reg) (v : Word) : State := { s with regs := s.regs.set r v }

/-! ## Bytes and words of memory -/

/-- The memory byte at an address (20_memory.md R50, R51). -/
def State.byte (s : State) (a : Word) : Byte := Memory.read s.mem a.toNat

/-- Write the memory byte at an address. -/
def State.setByte (s : State) (a : Word) (b : Byte) : State := { s with mem := Memory.write s.mem a.toNat b }

/-- `v[7:0]`. -/
def lowByte (v : Word) : Byte := v.extractLsb' 0 8

/-- `v[15:8]`. -/
def highByte (v : Word) : Byte := v.extractLsb' 8 8

/-- `MemRead(a, 2)`: little-endian, the second byte at `a + 1` modulo 2^16 (00_scope.md R10, 20_memory.md R52). -/
def State.word (s : State) (a : Word) : Word := s.byte (a + 1) ++ s.byte a

/-- `MemWrite(a, 2, v)` (00_scope.md R10, 20_memory.md R52). -/
def State.setWord (s : State) (a : Word) (v : Word) : State := (s.setByte a (lowByte v)).setByte (a + 1) (highByte v)

/-- The bytes `a`, `a + 1`, ... (`n` of them), modulo 2^16. -/
def State.bytes (s : State) (a : Word) : Nat → List Byte
  | 0 => []
  | n + 1 => s.byte a :: State.bytes s (a + 1) n

/-- Write bytes at `a`, `a + 1`, ..., modulo 2^16, in order. -/
def State.setBytes (s : State) (a : Word) : List Byte → State
  | [] => s
  | b :: rest => State.setBytes (s.setByte a b) (a + 1) rest

/-! ## Faults -/

/-- `raise`: the instruction ends with no state written and the run stops with this reason (00_scope.md R11,
60_exceptions.md R361). The machine has no trap entry inside it (60_exceptions.md R360, R366), so there is nothing to
save and nowhere to go. -/
def raise (f : Fault) : Host.Outcome State Fault Refusal := .fault f

/-- A 2-byte data access at this address raises `OutOfBounds` (20_memory.md R55). -/
def State.topFault (s : State) (a : Word) : Bool :=
  decide (a = 0xFFFF) && decide (s.cfg.topWordAccess = .fault)

/-- A 2-byte data read by the engine (20_memory.md R53, R55). -/
def loadWord (s : State) (a : Word) : Except Fault Word :=
  if s.topFault a then .error .outOfBounds else .ok (s.word a)

/-- A 2-byte data write by the engine (20_memory.md R53, R55). -/
def storeWord (s : State) (a : Word) (v : Word) : Except Fault State :=
  if s.topFault a then .error .outOfBounds else .ok (s.setWord a v)

/-! ## The stack (44_stack.md R230) -/

/-- Push: write the value at `SP - 2`, then `SP <- SP - 2`; a fault writes neither (44_stack.md R230, R232). -/
def pushWord (s : State) (v : Word) : Except Fault State :=
  match storeWord s (s.reg .sp - 2) v with
  | .error f => .error f
  | .ok t => .ok (t.setReg .sp (s.reg .sp - 2))

/-! ## The end of an instruction -/

/-- The trailing increment: `IP <- IP + 4` modulo 2^16 on whatever value the effect left (40_cycle.md R124). -/
def State.advance (s : State) : State := s.setReg .ip (s.reg .ip + 4)

/-- The end of every instruction but `RET` and `HLT` (40_cycle.md R124). -/
def finish (s : State) : Host.Outcome State Fault Refusal := .next s.advance

/-! ## Fetch and decode -/

/-- `MemRead(IP, 4)` (40_cycle.md R121), from memory as it stands (20_memory.md R65). -/
def State.fetchWord (s : State) : BitVec 32 :=
  wordOfBytes (s.byte (s.reg .ip)) (s.byte (s.reg .ip + 1)) (s.byte (s.reg .ip + 2)) (s.byte (s.reg .ip + 3))

/-- A verdict of the decoder as the fault it raises (30_encoding.md R93). -/
def Fault.ofReject : Reject → Fault
  | .invalidRegister => .invalidRegister
  | .invalidInstruction => .invalidInstruction

/-- Steps 1 to 4 up to dispatch: the fetch bound, the fetch, the register check and the opcode check, in this order
(40_cycle.md R120 to R123, 60_exceptions.md R363). -/
def fetchDecode (s : State) : Except Fault Instr :=
  if (s.reg .ip).toNat > 0xFFFC then .error .outOfBounds
  else
    match decode s.fetchWord with
    | .error r => .error (Fault.ofReject r)
    | .ok i => .ok i

/-- An instruction's four bytes placed where the next step fetches. `IP` moves, to 0, only where no instruction can be
fetched at it. -/
def State.placeInstr (s : State) (w : BitVec 32) : State :=
  let t := if (s.reg .ip).toNat > 0xFFFC then s.setReg .ip 0 else s
  t.setBytes (t.reg .ip) (bytesOfWord w)

end Sys2Proof.Machine
end

