-- ==== Sys2Proof/Machine/Operands.lean ====
section
/-!
DEFINITION. The operand forms (30_encoding.md R82, 42_move_memory.md R179), the shift function (41_alu.md R151) and the
pseudo-random generator (45_system.md R261): everything an instruction computes with before it writes.
-/
namespace Sys2Proof.Machine

/-- Base register plus 16-bit offset, modulo 2^16: the only data addressing mode (42_move_memory.md R179). -/
def State.effAddr (s : State) (base : Reg) (imm : Word) : Word := s.reg base + imm

/-- The shift function of `SHRR` and `SHRI`: bit 3 of the amount is the direction, bits 2:0 the count, the right shift
is logical (41_alu.md R151). -/
def shift (v amt : Word) : Word :=
  if amt.getLsbD 3 then v <<< (amt.toNat % 8) else v >>> (amt.toNat % 8)

/-- What `NOT` computes, under `NotOp` (41_alu.md R154). -/
def notWord (op : NotOp) (v : Word) : Word :=
  match op with
  | .bitwise => ~~~v
  | .logical => if v = 0 then 1 else 0

/-- The value `PUSH dst` stores, under `PushSpValue` when `dst` is `SP` (44_stack.md R232). -/
def State.pushOperand (s : State) (dst : Reg) : Word :=
  if dst = .sp then
    match s.cfg.pushSpValue with
    | .new => s.reg .sp - 2
    | .old => s.reg .sp
  else s.reg dst

/-- The three xorshift steps: the generator's next state (45_system.md R261). -/
def prngNext (s : BitVec 64) : BitVec 64 :=
  let s1 := s ^^^ (s >>> 12)
  let s2 := s1 ^^^ (s1 <<< 25)
  s2 ^^^ (s2 >>> 27)

/-- The generator's output for its new state: the product with 2685821657736338717, modulo 2^64 (45_system.md R261). The
constant is the first factor, so that Lean's reduction never counts it down. -/
def prngOutput (s : BitVec 64) : BitVec 64 := 2685821657736338717#64 * s

end Sys2Proof.Machine
end

