-- ==== Sys2Proof/Machine/Flags.lean ====
section
/-!
DEFINITION. The conditions of the branches. The machine has no flags (10_state.md R28): a branch compares registers
directly, as unsigned 16-bit values (43_control.md R199).
-/
namespace Sys2Proof.Machine

/-- `x[dst] == x[src]` (43_control.md R200). -/
def State.condEq (s : State) (dst src : Reg) : Bool := decide (s.reg dst = s.reg src)

/-- `x[dst] != x[src]` (43_control.md R201). -/
def State.condNe (s : State) (dst src : Reg) : Bool := decide (s.reg dst ≠ s.reg src)

/-- `x[dst] > x[src]`, unsigned (43_control.md R202). -/
def State.condGt (s : State) (dst src : Reg) : Bool := decide ((s.reg dst).toNat > (s.reg src).toNat)

/-- `x[dst] == 0` (43_control.md R203). -/
def State.condZero (s : State) (dst : Reg) : Bool := decide (s.reg dst = 0)

end Sys2Proof.Machine
end

