-- ==== Sys2Proof/Machine/Alu.lean ====
section
/-!
DEFINITION. Arithmetic, logic and shift instructions (41_alu.md R139 to R155). Each reads all its operands, then writes
`x[dst]` once; the trailing increment then applies to whatever `IP` holds (R139).
-/
namespace Sys2Proof.Machine

/-- `NEG dst, src` (41_alu.md R140). -/
def execNeg (dst src : Reg) (s : State) : Host.Outcome State Fault Refusal :=
  finish (s.setReg dst (0 - s.reg src))

/-- `ADDR dst, src, r3` (41_alu.md R141). -/
def execAddr (dst src third : Reg) (s : State) : Host.Outcome State Fault Refusal :=
  finish (s.setReg dst (s.reg src + s.reg third))

/-- `ADDI dst, src, imm` (41_alu.md R142). -/
def execAddi (dst src : Reg) (imm : Word) (s : State) : Host.Outcome State Fault Refusal :=
  finish (s.setReg dst (s.reg src + imm))

/-- `MULR dst, src, r3` (41_alu.md R143). -/
def execMulr (dst src third : Reg) (s : State) : Host.Outcome State Fault Refusal :=
  finish (s.setReg dst (s.reg src * s.reg third))

/-- `MULI dst, src, imm` (41_alu.md R144). -/
def execMuli (dst src : Reg) (imm : Word) (s : State) : Host.Outcome State Fault Refusal :=
  finish (s.setReg dst (s.reg src * imm))

/-- `ANDR dst, src, r3` (41_alu.md R145). -/
def execAndr (dst src third : Reg) (s : State) : Host.Outcome State Fault Refusal :=
  finish (s.setReg dst (s.reg src &&& s.reg third))

/-- `ANDI dst, src, imm` (41_alu.md R146). -/
def execAndi (dst src : Reg) (imm : Word) (s : State) : Host.Outcome State Fault Refusal :=
  finish (s.setReg dst (s.reg src &&& imm))

/-- `ORR dst, src, r3` (41_alu.md R147). -/
def execOrr (dst src third : Reg) (s : State) : Host.Outcome State Fault Refusal :=
  finish (s.setReg dst (s.reg src ||| s.reg third))

/-- `ORI dst, src, imm` (41_alu.md R148). -/
def execOri (dst src : Reg) (imm : Word) (s : State) : Host.Outcome State Fault Refusal :=
  finish (s.setReg dst (s.reg src ||| imm))

/-- `XORR dst, src, r3` (41_alu.md R149). -/
def execXorr (dst src third : Reg) (s : State) : Host.Outcome State Fault Refusal :=
  finish (s.setReg dst (s.reg src ^^^ s.reg third))

/-- `XORI dst, src, imm` (41_alu.md R150). -/
def execXori (dst src : Reg) (imm : Word) (s : State) : Host.Outcome State Fault Refusal :=
  finish (s.setReg dst (s.reg src ^^^ imm))

/-- `SHRR dst, src, r3` (41_alu.md R152). -/
def execShrr (dst src third : Reg) (s : State) : Host.Outcome State Fault Refusal :=
  finish (s.setReg dst (shift (s.reg src) (s.reg third)))

/-- `SHRI dst, src, imm` (41_alu.md R153). -/
def execShri (dst src : Reg) (imm : Word) (s : State) : Host.Outcome State Fault Refusal :=
  finish (s.setReg dst (shift (s.reg src) imm))

/-- `NOT dst, src`, under `NotOp` (41_alu.md R154). -/
def execNot (dst src : Reg) (s : State) : Host.Outcome State Fault Refusal :=
  finish (s.setReg dst (notWord s.cfg.notOp (s.reg src)))

end Sys2Proof.Machine
end

