-- ==== Sys2Proof/Machine/Control.lean ====
section
/-!
DEFINITION. Branches, call and return (43_control.md R199 to R207).
-/
namespace Sys2Proof.Machine

/-- A conditional branch: taken, it adds the immediate to `IP`; the trailing increment follows either way
(43_control.md R199). -/
def branchIf (taken : Bool) (imm : Word) (s : State) : Host.Outcome State Fault Refusal :=
  finish (if taken then s.setReg .ip (s.reg .ip + imm) else s)

/-- `JEI dst, src, target` (43_control.md R200). -/
def execJei (dst src : Reg) (imm : Word) (s : State) : Host.Outcome State Fault Refusal :=
  branchIf (s.condEq dst src) imm s

/-- `JNI dst, src, target` (43_control.md R201). -/
def execJni (dst src : Reg) (imm : Word) (s : State) : Host.Outcome State Fault Refusal :=
  branchIf (s.condNe dst src) imm s

/-- `JGI dst, src, target` (43_control.md R202). -/
def execJgi (dst src : Reg) (imm : Word) (s : State) : Host.Outcome State Fault Refusal :=
  branchIf (s.condGt dst src) imm s

/-- `JZI dst, target` (43_control.md R203). -/
def execJzi (dst : Reg) (imm : Word) (s : State) : Host.Outcome State Fault Refusal :=
  branchIf (s.condZero dst) imm s

/-- `CALL target`: push `IP + 4`, then add the immediate to `IP` (43_control.md R205). -/
def execCall (imm : Word) (s : State) : Host.Outcome State Fault Refusal :=
  match pushWord s (s.reg .ip + 4) with
  | .error f => raise f
  | .ok t => finish (t.setReg .ip (s.reg .ip + imm))

/-- `RET`: pop into `IP`, with no trailing increment (43_control.md R206). -/
def execRet (s : State) : Host.Outcome State Fault Refusal :=
  match loadWord s (s.reg .sp) with
  | .error f => raise f
  | .ok v => .next ((s.setReg .sp (s.reg .sp + 2)).setReg .ip v)

end Sys2Proof.Machine
end

