-- ==== Sys2Proof/Machine/Move.lean ====
section
/-!
DEFINITION. Loads, stores and moves (42_move_memory.md R179 to R183).
-/
namespace Sys2Proof.Machine

/-- `LD dst, src, imm`: the address uses the base's old value, also when `dst = src` (42_move_memory.md R180). -/
def execLd (dst src : Reg) (imm : Word) (s : State) : Host.Outcome State Fault Refusal :=
  match loadWord s (s.effAddr src imm) with
  | .error f => raise f
  | .ok v => finish (s.setReg dst v)

/-- `ST dst, src, imm`: stores `x[dst]` at `x[src] + imm` (42_move_memory.md R181, 90_conflicts.md C1). -/
def execSt (dst src : Reg) (imm : Word) (s : State) : Host.Outcome State Fault Refusal :=
  match storeWord s (s.effAddr src imm) (s.reg dst) with
  | .error f => raise f
  | .ok t => finish t

/-- `MOVR dst, src` (42_move_memory.md R182). -/
def execMovr (dst src : Reg) (s : State) : Host.Outcome State Fault Refusal :=
  finish (s.setReg dst (s.reg src))

/-- `MOVI dst, imm` (42_move_memory.md R183). -/
def execMovi (dst : Reg) (imm : Word) (s : State) : Host.Outcome State Fault Refusal :=
  finish (s.setReg dst imm)

end Sys2Proof.Machine
end

