-- ==== Sys2Proof/Machine/Stack.lean ====
section
/-!
DEFINITION. Stack instructions (44_stack.md R230 to R234): stride 2, full descending.
-/
namespace Sys2Proof.Machine

/-- `POP dst`: load, write `dst`, then `SP <- SP + 2`; for `dst = SP` under `PopSpResult` (44_stack.md R231). -/
def execPop (dst : Reg) (s : State) : Host.Outcome State Fault Refusal :=
  match loadWord s (s.reg .sp) with
  | .error f => raise f
  | .ok v =>
    finish (if dst = .sp ∧ s.cfg.popSpResult = .loaded then s.setReg .sp v
      else (s.setReg dst v).setReg .sp ((s.setReg dst v).reg .sp + 2))

/-- `PUSH dst` (44_stack.md R232). -/
def execPush (dst : Reg) (s : State) : Host.Outcome State Fault Refusal :=
  match pushWord s (s.pushOperand dst) with
  | .error f => raise f
  | .ok t => finish t

/-- `PUSI imm` (44_stack.md R233). -/
def execPusi (imm : Word) (s : State) : Host.Outcome State Fault Refusal :=
  match pushWord s imm with
  | .error f => raise f
  | .ok t => finish t

end Sys2Proof.Machine
end

