-- ==== Sys2Proof/Machine/System.lean ====
section
/-!
DEFINITION. No-op, halt, system call and random number (45_system.md R250 to R262).
-/
namespace Sys2Proof.Machine

/-- `NOP`: nothing but the trailing increment (45_system.md R250). -/
def execNop (s : State) : Host.Outcome State Fault Refusal := finish s

/-- `HLT`: the run stops with `Halt`; no state of the VM is written and `IP` stays at the `HLT` (45_system.md R251).
The model's own field `halted` tells this `Halt(vm')` from a `Continue(vm')` (40_cycle.md R126; log entry 5). -/
def execHlt (s : State) : Host.Outcome State Fault Refusal := .next { s with halted := true }

/-! ## The default handler (45_system.md R257 to R259) -/

/-- The next outcome of a read of standard input: the oldest the host has supplied, else a draw (D14). -/
def StdIo.nextRead (io : StdIo) : ReadOutcome × StdIo :=
  match io.stdin with
  | o :: rest => (o, { io with stdin := rest })
  | [] => (Config.stdinOracle io.reads, { io with reads := io.reads + 1 })

/-- The next outcome of a write to standard output: the oldest the host has supplied, else a draw (D14). -/
def StdIo.nextWrite (io : StdIo) : WriteOutcome × StdIo :=
  match io.writeResults with
  | o :: rest => (o, { io with writeResults := rest })
  | [] => (Config.stdoutOracle io.writes, { io with writes := io.writes + 1 })

/-- The 16-bit result of a read: the byte zero-extended, or 0xFFFF on failure (45_system.md R257). -/
def readResult : ReadOutcome → Word
  | .byte b => b.zeroExtend 16
  | .failure => 0xFFFF

/-- The 16-bit result of a write (45_system.md R257). -/
def writeResult : WriteOutcome → Word
  | .success => 0x0000
  | .failure => 0xFFFF

/-- The bytes delivered by a write of `b` with this outcome: `b` if it succeeded, nothing if it failed
(45_system.md R258). -/
def delivered (b : Byte) : WriteOutcome → List Byte
  | .success => [b]
  | .failure => []

/-- The default handler: `RA = 0` reads a byte, `RA = 1` writes the low byte of `R1`, any other `RA` returns 0
(45_system.md R257). It changes no part of the context (45_system.md R253). -/
def defaultHandler (s : State) : State × Word :=
  if s.reg .ra = 0x0000 then
    ({ s with io := s.io.nextRead.2 }, readResult s.io.nextRead.1)
  else if s.reg .ra = 0x0001 then
    ({ s with io := { s.io.nextWrite.2 with
        stdout := s.io.stdout ++ delivered (lowByte (s.reg .r1)) s.io.nextWrite.1 } },
      writeResult s.io.nextWrite.1)
  else (s, 0x0000)

/-! ## Registered handlers (45_system.md R252, R253) -/

/-- The context a handler receives. -/
def State.context (s : State) : Context := { regs := s.regs, mem := s.mem, prng := s.prng }

/-- The state with the context a handler returned. -/
def State.withContext (s : State) (c : Context) : State :=
  { s with regs := c.regs, mem := Memory.canon c.mem, prng := c.prng }

/-- Call the bound handler (45_system.md R252, 10_state.md R31). -/
def callHandler (s : State) : State × Word :=
  match s.sys with
  | .default => defaultHandler s
  | .registered n => (s.withContext (Config.syscallHandler n s.context).1, (Config.syscallHandler n s.context).2)

/-- `SYS`: call the bound handler, apply the context it returns, then write its result to `RA` (45_system.md R256). -/
def execSys (s : State) : Host.Outcome State Fault Refusal :=
  finish ((callHandler s).1.setReg .ra (callHandler s).2)

/-- `RAND`: draw from the generator and write the low 16 bits of the output to `RA` (45_system.md R260, R261). -/
def execRand (s : State) : Host.Outcome State Fault Refusal :=
  finish ({ s with prng := prngNext s.prng }.setReg .ra ((prngOutput (prngNext s.prng)).extractLsb' 0 16))

end Sys2Proof.Machine
end

