-- ==== Sys2Proof/Machine/Dispatch.lean ====
section
/-!
DEFINITION. Dispatch on the opcode (40_cycle.md R123): one arm per instruction, each a direct call of its meaning.
-/
namespace Sys2Proof.Machine

def exec (i : Instr) (s : State) : Host.Outcome State Fault Refusal :=
  match i with
  | .nop => Sys2Proof.Machine.execNop s
  | .neg dst src => Sys2Proof.Machine.execNeg dst src s
  | .addr dst src third => Sys2Proof.Machine.execAddr dst src third s
  | .addi dst src imm => Sys2Proof.Machine.execAddi dst src imm s
  | .mulr dst src third => Sys2Proof.Machine.execMulr dst src third s
  | .muli dst src imm => Sys2Proof.Machine.execMuli dst src imm s
  | .andr dst src third => Sys2Proof.Machine.execAndr dst src third s
  | .andi dst src imm => Sys2Proof.Machine.execAndi dst src imm s
  | .orr dst src third => Sys2Proof.Machine.execOrr dst src third s
  | .ori dst src imm => Sys2Proof.Machine.execOri dst src imm s
  | .xorr dst src third => Sys2Proof.Machine.execXorr dst src third s
  | .xori dst src imm => Sys2Proof.Machine.execXori dst src imm s
  | .shrr dst src third => Sys2Proof.Machine.execShrr dst src third s
  | .shri dst src imm => Sys2Proof.Machine.execShri dst src imm s
  | .not dst src => Sys2Proof.Machine.execNot dst src s
  | .ld dst src imm => Sys2Proof.Machine.execLd dst src imm s
  | .st dst src imm => Sys2Proof.Machine.execSt dst src imm s
  | .hlt => Sys2Proof.Machine.execHlt s
  | .movr dst src => Sys2Proof.Machine.execMovr dst src s
  | .movi dst imm => Sys2Proof.Machine.execMovi dst imm s
  | .jei dst src imm => Sys2Proof.Machine.execJei dst src imm s
  | .jni dst src imm => Sys2Proof.Machine.execJni dst src imm s
  | .jgi dst src imm => Sys2Proof.Machine.execJgi dst src imm s
  | .jzi dst imm => Sys2Proof.Machine.execJzi dst imm s
  | .call imm => Sys2Proof.Machine.execCall imm s
  | .ret => Sys2Proof.Machine.execRet s
  | .pop dst => Sys2Proof.Machine.execPop dst s
  | .push dst => Sys2Proof.Machine.execPush dst s
  | .pusi imm => Sys2Proof.Machine.execPusi imm s
  | .sys => Sys2Proof.Machine.execSys s
  | .rand => Sys2Proof.Machine.execRand s

end Sys2Proof.Machine
end

