-- ==== Sys2Proof/Machine/Step.lean ====
section
/-!
DEFINITION. One step of the engine (40_cycle.md R125), and the host's way to place an instruction where the next step
fetches (log entry 10).
-/
namespace Sys2Proof.Machine

/-- One step: fetch bound, fetch, register check, opcode check, effect and trailing increment (40_cycle.md R125). -/
def step (s : State) : Host.Outcome State Fault Refusal :=
  match fetchDecode s with
  | .error f => raise f
  | .ok i => exec i s

/-- `s` with the instruction of these bits stored at `IP`; it stands for the host's load of a program. -/
def State.withFetchWord (s : State) (nbits w : Nat) : State := s.placeInstr (BitVec.ofNat 32 (w % 2 ^ nbits))

end Sys2Proof.Machine
end

