-- ==== Sys2Proof/Machine/Disasm.lean ====
section
/-!
DEFINITION. The disassembler (46_disassembler.md R280 to R290): a pure function of an address and an instruction word,
which shares the engine's decoder (R281). Text is a list of characters. Its formatting parameters (D4, D25, D27) are
arguments.
-/
namespace Sys2Proof.Machine

/-- A piece of text. -/
abbrev Text := List Char

/-- `HexCase` (D25). -/
inductive HexCase where
  | upper
  | lower
  deriving DecidableEq, Repr, Inhabited

/-- `DisasmCallOperand` (D4). -/
inductive CallOperand where
  | resolved
  | raw
  deriving DecidableEq, Repr, Inhabited

/-- The open parameters of the disassembler's text (00_scope.md R6). -/
structure DisasmParams where
  mnemonicWidth : Nat
  hexCase       : HexCase
  callOperand   : CallOperand
  placeholder   : Text
  deriving DecidableEq, Repr, Inhabited

/-- The name of a register (46_disassembler.md R283). -/
def regText : Reg → Text
  | .ra => ['R', 'A']
  | .r1 => ['R', '1']
  | .r2 => ['R', '2']
  | .r3 => ['R', '3']
  | .r4 => ['R', '4']
  | .r5 => ['R', '5']
  | .sp => ['S', 'P']
  | .ip => ['I', 'P']

/-- The mnemonic, as the source writes it (30_encoding.md R91, 46_disassembler.md R288). -/
def mnemonicText : Instr → Text
  | .nop => ['N', 'O', 'P']
  | .neg .. => ['N', 'E', 'G']
  | .addr .. => ['A', 'D', 'D', 'R']
  | .addi .. => ['A', 'D', 'D', 'I']
  | .mulr .. => ['M', 'U', 'L', 'R']
  | .muli .. => ['M', 'U', 'L', 'I']
  | .andr .. => ['A', 'N', 'D', 'R']
  | .andi .. => ['A', 'N', 'D', 'I']
  | .orr .. => ['O', 'R', 'R']
  | .ori .. => ['O', 'R', 'I']
  | .xorr .. => ['X', 'O', 'R', 'R']
  | .xori .. => ['X', 'O', 'R', 'I']
  | .shrr .. => ['S', 'H', 'R', 'R']
  | .shri .. => ['S', 'H', 'R', 'I']
  | .not .. => ['N', 'O', 'T']
  | .ld .. => ['L', 'D']
  | .st .. => ['S', 'T']
  | .hlt => ['H', 'L', 'T']
  | .movr .. => ['M', 'O', 'V', 'R']
  | .movi .. => ['M', 'O', 'V', 'I']
  | .jei .. => ['J', 'E', 'I']
  | .jni .. => ['J', 'N', 'I']
  | .jgi .. => ['J', 'G', 'I']
  | .jzi .. => ['J', 'Z', 'I']
  | .call .. => ['C', 'A', 'L', 'L']
  | .ret => ['R', 'E', 'T']
  | .pop .. => ['P', 'O', 'P']
  | .push .. => ['P', 'U', 'S', 'H']
  | .pusi .. => ['P', 'U', 'S', 'I']
  | .sys => ['S', 'Y', 'S']
  | .rand => ['R', 'A', 'N', 'D']

/-- The operands in the order of the instruction's shape (46_disassembler.md R288); for `CALL` by `DisasmCallOperand`
(R286). -/
def operandsOf (call : CallOperand) : Instr → List Operand
  | .nop | .hlt | .ret | .sys | .rand => []
  | .pop d | .push d => [.reg d]
  | .neg d a | .not d a | .movr d a => [.reg d, .reg a]
  | .addr d a b | .mulr d a b | .andr d a b | .orr d a b | .xorr d a b | .shrr d a b => [.reg d, .reg a, .reg b]
  | .pusi v => [.imm v]
  | .call v =>
    match call with
    | .resolved => [.rel v]
    | .raw => [.imm v]
  | .movi d v => [.reg d, .imm v]
  | .addi d a v | .muli d a v | .andi d a v | .ori d a v | .xori d a v | .shri d a v | .ld d a v | .st d a v =>
    [.reg d, .reg a, .imm v]
  | .jzi d v => [.reg d, .rel v]
  | .jei d a v | .jni d a v | .jgi d a v => [.reg d, .reg a, .rel v]

/-- One hexadecimal digit (46_disassembler.md R284). -/
def hexDigit (c : HexCase) (n : Nat) : Char :=
  match n with
  | 0 => '0'
  | 1 => '1'
  | 2 => '2'
  | 3 => '3'
  | 4 => '4'
  | 5 => '5'
  | 6 => '6'
  | 7 => '7'
  | 8 => '8'
  | 9 => '9'
  | 10 => match c with | .upper => 'A' | .lower => 'a'
  | 11 => match c with | .upper => 'B' | .lower => 'b'
  | 12 => match c with | .upper => 'C' | .lower => 'c'
  | 13 => match c with | .upper => 'D' | .lower => 'd'
  | 14 => match c with | .upper => 'E' | .lower => 'e'
  | _ => match c with | .upper => 'F' | .lower => 'f'

/-- `0x` and exactly four hexadecimal digits (46_disassembler.md R284). -/
def hex4 (c : HexCase) (v : Word) : Text :=
  ['0', 'x', hexDigit c (v.toNat / 4096), hexDigit c (v.toNat / 256 % 16), hexDigit c (v.toNat / 16 % 16),
   hexDigit c (v.toNat % 16)]

/-- One operand of the instruction at `a`; a relative one is printed as its resolved target (46_disassembler.md
R283 to R285). -/
def operandText (p : DisasmParams) (a : Word) : Operand → Text
  | .reg r => regText r
  | .imm v => hex4 p.hexCase v
  | .rel v => hex4 p.hexCase (relativeTarget a v)

/-- `join(",", operands)`: a single comma, no space (46_disassembler.md R282). -/
def joinComma : List Text → Text
  | [] => []
  | [t] => t
  | t :: rest => t ++ ',' :: joinComma rest

/-- `pad_right`: spaces up to the width (46_disassembler.md R282). -/
def padRight (t : Text) (width : Nat) : Text := t ++ List.replicate (width - t.length) ' '

/-- The line of a legal instruction at `a`, with the `JMP` idiom (46_disassembler.md R282, R287). -/
def render (p : DisasmParams) (a : Word) (i : Instr) : Text :=
  match i with
  | .addi .ip .ip v => padRight ['J', 'M', 'P'] p.mnemonicWidth ++ hex4 p.hexCase (relativeTarget a v)
  | _ =>
    padRight (mnemonicText i) p.mnemonicWidth ++ joinComma ((operandsOf p.callOperand i).map (operandText p a))

/-- `disasm(a, W)`: one line and whether the word is legal (46_disassembler.md R280, R281). -/
def disasm (p : DisasmParams) (a : Word) (w : BitVec 32) : Text × Bool :=
  match decode w with
  | .error _ => (p.placeholder, false)
  | .ok i => (render p a i, true)

end Sys2Proof.Machine
end

