-- ==== Sys2Proof/Machine/Execute.lean ====
section
/-!
DEFINITION. The `execute` operation (40_cycle.md R127 to R131) and the stop reasons with their results and codes
(60_exceptions.md R362).
-/
namespace Sys2Proof.Machine

/-- The stop reason a step's fault is reported as (40_cycle.md R131). -/
def StopReason.ofFault : Fault → StopReason
  | .outOfBounds => .outOfBounds
  | .invalidRegister => .invalidRegister
  | .invalidInstruction => .invalidInstruction

/-- The numeric code of a stop reason, the spec's own label (60_exceptions.md R362, D33). -/
def StopReason.code : StopReason → Nat
  | .outOfBounds => 0
  | .invalidRegister => 1
  | .invalidInstruction => 2
  | .invalidState => 3
  | .halt => 4
  | .decodeError => 5
  | .ioError => 6
  | .budgetExhausted => 7

/-- The result paired with a stop reason: true for success (40_cycle.md R131). -/
def StopReason.success : StopReason → Bool
  | .halt | .budgetExhausted => true
  | .outOfBounds | .invalidRegister | .invalidInstruction | .invalidState | .decodeError | .ioError => false

/-- The start of a run: `life <- Executing` (40_cycle.md R127), and the model's `halted` is cleared (log entry 5). -/
def State.begin (s : State) : State := { s with life := .executing, halted := false }

/-- The end of a run: `life <- Sleeping` (40_cycle.md R127). -/
def State.sleep (s : State) : State := { s with life := .sleeping }

/-- What is left of the budget after one instruction; a negative budget stays (40_cycle.md R127). -/
def nextCount (count : Int) : Int := if count > 0 then count - 1 else count

/-- The loop of `execute` (40_cycle.md R127), within `fuel` steps: the stop reason and the state at return, or none if
the call has not returned yet. A run with a negative budget may never return: it is none for every `fuel`. -/
def executeLoop : Nat → Int → State → Option (StopReason × State)
  | 0, count, s => if count = 0 then some (.budgetExhausted, s.sleep) else none
  | fuel + 1, count, s =>
    if count = 0 then some (.budgetExhausted, s.sleep)
    else
      match step s with
      | .next t => if t.halted then some (.halt, t.sleep) else executeLoop fuel (nextCount count) t
      | .fault f => some (StopReason.ofFault f, s.sleep)
      | .refused _ => none

/-- `execute(count)` (40_cycle.md R127, R128), within `fuel` steps. -/
def execute (fuel : Nat) (count : Int) (s : State) : Option (StopReason × State) :=
  if s.life ≠ .sleeping then some (.invalidState, s) else executeLoop fuel count s.begin

end Sys2Proof.Machine
end

