-- ==== Sys2Proof/Machine/Image.lean ====
section
/-!
DEFINITION. The image codec and the loader (47_image_loader.md R320 to R332). The image's open parameters (D21 to D23)
are arguments.
-/
namespace Sys2Proof.Machine

/-- `OneCase`: the case of the character for a 1 bit (47_image_loader.md R320, D23). -/
inductive LetterCase where
  | upper
  | lower
  deriving DecidableEq, Repr, Inhabited

/-- `ImageMagic`, `ImageVersion`, `BitLetter` (0 for A to 25 for Z) and `OneCase` (00_scope.md R6, D21 to D23). -/
structure ImageParams where
  magic   : Word
  version : Word
  letter  : Fin 26
  oneCase : LetterCase
  deriving DecidableEq, Repr

/-- How the byte source behaves once its bytes are used up (47_image_loader.md R326). -/
inductive SourceEnd where
  /-- the source is exhausted -/
  | exhausted
  /-- the source reports a read failure -/
  | readFailure
  deriving DecidableEq, Repr, Inhabited

/-- A byte source: the characters it still gives, and what it does after them (47_image_loader.md R326). -/
structure ByteSource where
  chars  : List Byte
  ending : SourceEnd
  deriving DecidableEq, Repr, Inhabited

/-- A decoded image: its entry address and its sections, in table order (47_image_loader.md R324). It is built once per
load and discarded (R332). -/
structure Image where
  entry    : Word
  sections : List (Word × List Byte)
  deriving DecidableEq, Repr, Inhabited

/-! ## The bit-per-character codec -/

/-- The letter in a case: upper 0x41 to 0x5A, lower 0x61 to 0x7A (47_image_loader.md R320). -/
def letterByte (letter : Fin 26) : LetterCase → Byte
  | .upper => BitVec.ofNat 8 (0x41 + letter.val)
  | .lower => BitVec.ofNat 8 (0x61 + letter.val)

/-- The opposite case. -/
def LetterCase.opposite : LetterCase → LetterCase
  | .upper => .lower
  | .lower => .upper

/-- `C1` for a 1 bit, `C0` for a 0 bit (47_image_loader.md R320). -/
def bitChar (p : ImageParams) (bit : Bool) : Byte :=
  letterByte p.letter (if bit then p.oneCase else p.oneCase.opposite)

/-- The bit of a character; none if it is neither `C1` nor `C0` (47_image_loader.md R321). -/
def charBit (p : ImageParams) (c : Byte) : Option Bool :=
  if c = bitChar p true then some true else if c = bitChar p false then some false else none

/-- Fold characters into a byte, most significant bit first; fail at the first invalid one (47_image_loader.md R321). -/
def decodeByteFrom (p : ImageParams) (b : Byte) : List Byte → Except StopReason Byte
  | [] => .ok b
  | c :: rest =>
    match charBit p c with
    | none => .error .decodeError
    | some bit => decodeByteFrom p ((b <<< 1) ||| (if bit then 1 else 0)) rest

/-- Decode consecutive groups of 8 characters (47_image_loader.md R321, R323). A last group of fewer than 8 characters
is no byte; the loader never asks for one. -/
def decodeChars (p : ImageParams) : List Byte → Except StopReason (List Byte)
  | [] => .ok []
  | c0 :: c1 :: c2 :: c3 :: c4 :: c5 :: c6 :: c7 :: rest =>
    match decodeByteFrom p 0 [c0, c1, c2, c3, c4, c5, c6, c7] with
    | .error e => .error e
    | .ok b =>
      match decodeChars p rest with
      | .error e => .error e
      | .ok bs => .ok (b :: bs)
  | _ => .error .decodeError

/-- Encode one byte, most significant bit first (47_image_loader.md R322). -/
def encodeByte (p : ImageParams) (b : Byte) : List Byte :=
  [bitChar p (b.getLsbD 7), bitChar p (b.getLsbD 6), bitChar p (b.getLsbD 5), bitChar p (b.getLsbD 4),
   bitChar p (b.getLsbD 3), bitChar p (b.getLsbD 2), bitChar p (b.getLsbD 1), bitChar p (b.getLsbD 0)]

/-- Encode a run of bytes (47_image_loader.md R322, R323). -/
def encodeChars (p : ImageParams) : List Byte → List Byte
  | [] => []
  | b :: rest => encodeByte p b ++ encodeChars p rest

/-! ## The image format -/

/-- A 2-byte field is little-endian (47_image_loader.md R323, R325). -/
def fieldOf (lo hi : Byte) : Word := hi ++ lo

/-- The two bytes of a field. -/
def fieldBytes (v : Word) : List Byte := [lowByte v, highByte v]

/-- The decoded bytes of the section table (47_image_loader.md R324). -/
def tableBytes : List (Word × List Byte) → List Byte
  | [] => []
  | (a, data) :: rest => fieldBytes a ++ fieldBytes (BitVec.ofNat 16 data.length) ++ tableBytes rest

/-- The decoded bytes of the sections, back to back in table order (47_image_loader.md R324). -/
def dataBytes : List (Word × List Byte) → List Byte
  | [] => []
  | (_, data) :: rest => data ++ dataBytes rest

/-- The decoded bytes of an image: header, section table, section data (47_image_loader.md R324). -/
def imageBytes (p : ImageParams) (img : Image) : List Byte :=
  fieldBytes p.magic ++ fieldBytes p.version ++ fieldBytes img.entry
    ++ fieldBytes (BitVec.ofNat 16 img.sections.length) ++ tableBytes img.sections ++ dataBytes img.sections

/-- The characters of an image (47_image_loader.md R324). -/
def encodeImage (p : ImageParams) (img : Image) : List Byte := encodeChars p (imageBytes p img)

/-! ## The loader -/

/-- `read(n)`: the next `n` characters; `DecodeError` where the source ends before them, `IoError` where it reports a
read failure (47_image_loader.md R326). -/
def ByteSource.read (src : ByteSource) (n : Nat) : Except StopReason (List Byte × ByteSource) :=
  if n ≤ src.chars.length then .ok (src.chars.take n, { src with chars := src.chars.drop n })
  else
    match src.ending with
    | .exhausted => .error .decodeError
    | .readFailure => .error .ioError

/-- `decode(read(8 * n))`: `n` decoded bytes. The read comes before the decoding (DEDUCED, log entry 9). -/
def readDecoded (p : ImageParams) (n : Nat) (src : ByteSource) : Except StopReason (List Byte × ByteSource) :=
  match src.read (8 * n) with
  | .error e => .error e
  | .ok (cs, rest) =>
    match decodeChars p cs with
    | .error e => .error e
    | .ok bs => .ok (bs, rest)

/-- The section table: `n` pairs of address and length (47_image_loader.md R326). -/
def readTable (p : ImageParams) : Nat → ByteSource → Except StopReason (List (Word × Word) × ByteSource)
  | 0, src => .ok ([], src)
  | n + 1, src =>
    match readDecoded p 4 src with
    | .ok ([a0, a1, l0, l1], src1) =>
      match readTable p n src1 with
      | .error e => .error e
      | .ok (rows, src2) => .ok ((fieldOf a0 a1, fieldOf l0 l1) :: rows, src2)
    | .ok _ => .error .decodeError
    | .error e => .error e

/-- The sections' data, each bound checked after its data is decoded (47_image_loader.md R326, R328, D19). -/
def readSections (p : ImageParams) :
    List (Word × Word) → ByteSource → Except StopReason (List (Word × List Byte) × ByteSource)
  | [], src => .ok ([], src)
  | (a, len) :: rows, src =>
    match readDecoded p len.toNat src with
    | .error e => .error e
    | .ok (data, src1) =>
      if a.toNat + len.toNat ≥ 0x10000 then .error .outOfBounds
      else
        match readSections p rows src1 with
        | .error e => .error e
        | .ok (secs, src2) => .ok ((a, data) :: secs, src2)

/-- Everything of the loader before the commit: header, magic, version, table, sections, in this order
(47_image_loader.md R326). It answers the image and what is left of the source (R331). -/
def readImage (p : ImageParams) (src : ByteSource) : Except StopReason (Image × ByteSource) :=
  match readDecoded p 8 src with
  | .ok ([m0, m1, v0, v1, e0, e1, n0, n1], src1) =>
    if fieldOf m0 m1 ≠ p.magic then .error .decodeError
    else if fieldOf v0 v1 ≠ p.version then .error .decodeError
    else
      match readTable p (fieldOf n0 n1).toNat src1 with
      | .error e => .error e
      | .ok (rows, src2) =>
        match readSections p rows src2 with
        | .error e => .error e
        | .ok (secs, src3) => .ok ({ entry := fieldOf e0 e1, sections := secs }, src3)
  | .ok _ => .error .decodeError
  | .error e => .error e

/-- Write the sections in table order (47_image_loader.md R326, R329). -/
def State.writeSections (s : State) : List (Word × List Byte) → State
  | [] => s
  | (a, data) :: rest => State.writeSections (s.setBytes a data) rest

/-- The commit: the sections, then `IP <- entry`, which is not checked (47_image_loader.md R326, R330). -/
def State.commitImage (s : State) (img : Image) : State := (s.writeSections img.sections).setReg .ip img.entry

/-- `load`: it writes memory and `IP` or nothing (47_image_loader.md R326, R327). -/
def load (p : ImageParams) (src : ByteSource) (s : State) : Except StopReason (State × ByteSource) :=
  if s.life ≠ .sleeping then .error .invalidState
  else
    match readImage p src with
    | .error e => .error e
    | .ok (img, rest) => .ok (s.commitImage img, rest)

end Sys2Proof.Machine
end

