-- ==== Sys2Proof/Machine/HostOps.lean ====
section
/-!
DEFINITION. The host operations other than `create` (State.lean), `execute` (Execute.lean) and `load` (Image.lean):
20_memory.md R60, R61, 60_exceptions.md R370, R377, 70_reset_and_hazards.md R402, R408. A failed operation answers its
reason and no state: the VM is unchanged (60_exceptions.md R361).
-/
namespace Sys2Proof.Machine

/-- `write_mem(addr, bytes)`, with the strict bound (20_memory.md R60). -/
def writeMem (addr : Word) (bytes : List Byte) (s : State) : Except StopReason State :=
  if s.life ≠ .sleeping then .error .invalidState
  else if addr.toNat + bytes.length ≥ 0x10000 then .error .outOfBounds
  else .ok (s.setBytes addr bytes)

/-- `read_mem(addr, len)`, with the strict bound (20_memory.md R60). -/
def readMem (addr : Word) (len : Nat) (s : State) : Except StopReason (List Byte) :=
  if s.life ≠ .sleeping then .error .invalidState
  else if addr.toNat + len ≥ 0x10000 then .error .outOfBounds
  else .ok (s.bytes addr len)

/-- The bytes of a sequence of instruction words (20_memory.md R61). -/
def codeBytes : List RawInstr → List Byte
  | [] => []
  | f :: rest => bytesOfWord f.toWord ++ codeBytes rest

/-- `put_code(addr, instructions)`: the words are copied as they are, legal or not, and `IP <- addr`
(20_memory.md R61). -/
def putCode (addr : Word) (code : List RawInstr) (s : State) : Except StopReason State :=
  if s.life ≠ .sleeping then .error .invalidState
  else if addr.toNat + 4 * code.length ≥ 0x10000 then .error .outOfBounds
  else .ok ((s.setBytes addr (codeBytes code)).setReg .ip addr)

/-- `register_syscall_handler(fn)` (70_reset_and_hazards.md R408). -/
def registerHandler (h : Handler) (s : State) : Except StopReason State :=
  if s.life ≠ .sleeping then .error .invalidState else .ok { s with sys := h }

/-- `dump_context()`: an observation of the registers and of `window` bytes from `SP` on, modulo 2^16
(60_exceptions.md R377, D30). Its text is not in the source and is not modelled. -/
def dumpContext (window : Nat) (s : State) : Except StopReason (Regs × List Byte) :=
  if s.life ≠ .sleeping then .error .invalidState else .ok (s.regs, s.bytes (s.reg .sp) window)

/-- `destroy(vm)` (70_reset_and_hazards.md R402). The register file and memory cease to exist: every later operation
fails with `InvalidState`, so what the fields then hold cannot be observed. -/
def destroy (s : State) : Except StopReason State :=
  if s.life ≠ .sleeping then .error .invalidState else .ok { s with life := .freed }

/-- The host operations that complete at once, as one type (60_exceptions.md R370). -/
inductive HostOp where
  | writeMem (addr : Word) (bytes : List Byte)
  | readMem (addr : Word) (len : Nat)
  | putCode (addr : Word) (code : List RawInstr)
  | load (p : ImageParams) (src : ByteSource)
  | registerHandler (h : Handler)
  | dumpContext (window : Nat)
  | destroy
  deriving DecidableEq, Repr

/-- What a host operation answers (60_exceptions.md R383). -/
inductive Reply where
  | done
  | bytes (bs : List Byte)
  | context (regs : Regs) (stack : List Byte)
  | failed (r : StopReason)
  deriving DecidableEq, Repr

/-- The reply and the state after an operation that writes: a failed one leaves the VM as it was
(60_exceptions.md R361). -/
def afterWrite (s : State) : Except StopReason State → Reply × State
  | .ok t => (.done, t)
  | .error r => (.failed r, s)

/-- One host operation between steps: its reply and the state it leaves (60_exceptions.md R370, R383). -/
def hostStep (op : HostOp) (s : State) : Reply × State :=
  match op with
  | .writeMem addr bytes => afterWrite s (writeMem addr bytes s)
  | .readMem addr len =>
    match readMem addr len s with
    | .ok bs => (.bytes bs, s)
    | .error r => (.failed r, s)
  | .putCode addr code => afterWrite s (putCode addr code s)
  | .load p src =>
    match load p src s with
    | .ok (t, _) => (.done, t)
    | .error r => (.failed r, s)
  | .registerHandler h => afterWrite s (registerHandler h s)
  | .dumpContext window =>
    match dumpContext window s with
    | .ok (regs, stack) => (.context regs stack, s)
    | .error r => (.failed r, s)
  | .destroy => afterWrite s (destroy s)

end Sys2Proof.Machine
end

