-- ==== Sys2Proof/Safety.lean ====
section
/-!
DEFINITION. What claims about the machine are stated in: the invariant of the state, what stays unchanged, what a store
leaves in memory, and the words of an opcode.
-/
namespace Sys2Proof.Machine

/-! ## The invariant -/

/-- The invariant of the state: memory is in its canonical form, so that equal memories are equal data and every cell
lies inside the 64 KiB (20_memory.md R50; log entry 2). -/
abbrev State.Inv (s : State) : Prop := Memory.wf s.mem = true

/-! ## Frames -/

/-- Every byte of memory reads as before. -/
def SameMemory (s t : State) : Prop := ∀ a : Word, t.byte a = s.byte a

/-- Everything but the registers and memory is as before. -/
def SameControl (s t : State) : Prop :=
  t.prng = s.prng ∧ t.life = s.life ∧ t.sys = s.sys ∧ t.io = s.io ∧ t.halted = s.halted ∧ t.cfg = s.cfg

/-- `t` is `s` with `v` written to `d` and then the trailing increment: with `d = IP` the next `IP` is `v + 4`
(41_alu.md R139, 40_cycle.md R124). Nothing else changes. -/
def WritesReg (s : State) (d : Reg) (v : Word) (t : State) : Prop :=
  (∀ q : Reg, t.reg q = if q = .ip then (if d = .ip then v else s.reg .ip) + 4 else if q = d then v else s.reg q) ∧
    SameMemory s t ∧ SameControl s t

/-- `t` is `s` with `IP` moved to `target`, and nothing else changed. -/
def MovesTo (s : State) (target : Word) (t : State) : Prop :=
  (∀ q : Reg, t.reg q = if q = .ip then target else s.reg q) ∧ SameMemory s t ∧ SameControl s t

/-- Memory of `t` is that of `s` with the 2-byte value `v` at `a`: `v[7:0]` at `a`, `v[15:8]` at `a + 1` modulo 2^16
(20_memory.md R52, R55), every other byte as before. -/
def StoresWord (s : State) (a v : Word) (t : State) : Prop :=
  ∀ b : Word, t.byte b = if b = a then v.extractLsb' 0 8 else if b = a + 1 then v.extractLsb' 8 8 else s.byte b

/-- The 2-byte value at `a`, little-endian (20_memory.md R52). -/
def wordAt (s : State) (a : Word) : Word := s.byte (a + 1) ++ s.byte a

/-- A 2-byte data access at `a` raises `OutOfBounds` (20_memory.md R55). -/
def TopFaults (s : State) (a : Word) : Prop := a = 0xFFFF ∧ s.cfg.topWordAccess = .fault

/-! ## Words -/

/-- The word with this opcode, these registers in its `dst` and `src` fields and this `imm` (30_encoding.md R80). -/
def wordOf (opcode : BitVec 8) (dst src : Reg) (imm : Word) : BitVec 32 := imm ++ dst.toField ++ src.toField ++ opcode

/-- The four bytes at `IP` as one little-endian word (40_cycle.md R121). -/
def wordAtIp (s : State) : BitVec 32 :=
  s.byte (s.reg .ip + 3) ++ s.byte (s.reg .ip + 2) ++ s.byte (s.reg .ip + 1) ++ s.byte (s.reg .ip)

/-- One of the register fields of a word names no register: bit 7 or bit 3 of its `reg` byte is set
(30_encoding.md R93). -/
def BadRegister (w : BitVec 32) : Prop := w.getLsbD 15 = true ∨ w.getLsbD 11 = true

/-- Both register fields of this opcode's words are checked, though its effect does not read both: a word of it with a
field that names no register raises `InvalidRegister` (40_cycle.md R122). -/
def FieldsChecked (opcode : Nat) : Prop :=
  ∀ w : BitVec 32, w.toNat % 256 = opcode → BadRegister w → decode w = .error .invalidRegister

/-! ## Host writes -/

/-- What a byte at `a` is after `data` has been written at `b` and up, `old` before. -/
def covered (b : Word) (data : List Byte) (a : Word) (old : Byte) : Byte :=
  if b.toNat ≤ a.toNat then (data[a.toNat - b.toNat]?).getD old else old

/-- What a byte at `a` is after sections have been written in order: a later section replaces an earlier one
(47_image_loader.md R329). -/
def overlay : List (Word × List Byte) → Word → Byte → Byte
  | [], _, old => old
  | (b, data) :: rest, a, old => overlay rest a (covered b data a old)

/-! ## The default handler's device -/

/-- The outcome the next read of standard input has (D14). -/
def readOutcome (io : StdIo) : ReadOutcome := (io.stdin.head?).getD (Config.stdinOracle io.reads)

/-- The outcome the next write to standard output has (D14). -/
def writeOutcome (io : StdIo) : WriteOutcome := (io.writeResults.head?).getD (Config.stdoutOracle io.writes)

end Sys2Proof.Machine
end

