-- ==== Sys2Proof/Certificates/Slice0/Obligations.lean ====
section
/-!
DEFINITION. The statements for the provers. Each docstring names the rules of spec/ it rests on.
-/

open Sys2Proof Sys2Proof.Machine

/-- Decoding the encoding of any instruction, with every operand at every value, gives it back, also through the four
bytes in memory order (30_encoding.md R80, R81, R87). -/
def Obligations.DecodeEncodeRoundTrip : Prop :=
  ∀ i : Instr, decode (encode i) = .ok i ∧
    ∃ b0 b1 b2 b3 : Byte, bytesOfWord (encode i) = [b0, b1, b2, b3] ∧ decode (wordOfBytes b0 b1 b2 b3) = .ok i

/-- A word with bit 7 or bit 3 of its `reg` byte set raises `InvalidRegister`, another with an opcode from 0x1F on
raises
`InvalidInstruction`, and every other word is a legal instruction (30_encoding.md R93). -/
def Obligations.IllegalWordsRejected : Prop :=
  ∀ w : BitVec 32,
    (BadRegister w → decode w = .error .invalidRegister) ∧
    (¬ BadRegister w → w.toNat % 256 > 0x1E → decode w = .error .invalidInstruction) ∧
    (¬ BadRegister w → w.toNat % 256 ≤ 0x1E → ∃ i : Instr, decode w = .ok i)

/-- Field extraction: opcode W[7:0], src W[11:8], dst W[15:12], imm W[31:16], and the third register's index is
`imm[2:0]` (30_encoding.md R81). -/
def Obligations.FieldsExtracted : Prop :=
  (∀ w : BitVec 32, (RawInstr.ofWord w).opcode.toNat = w.toNat % 256 ∧
    (RawInstr.ofWord w).src.toNat = w.toNat / 2 ^ 8 % 16 ∧
    (RawInstr.ofWord w).dst.toNat = w.toNat / 2 ^ 12 % 16 ∧
    (RawInstr.ofWord w).imm.toNat = w.toNat / 2 ^ 16) ∧
  ∀ imm : Word, (thirdReg imm).toField.toNat = imm.toNat % 8

/-- Two words with legal register fields, the same opcode and the same values in the fields that opcode reads decode to
the same instruction; `dst` and `src` are checked whatever the opcode (30_encoding.md R92). -/
def Obligations.UnreadFieldsIgnored : Prop :=
  (∀ (w w' : BitVec 32) (i : Instr), decode w = .ok i → ¬ BadRegister w' →
    (RawInstr.ofWord w').opcode = (RawInstr.ofWord w).opcode →
    (i.shape.readsDst = true → (RawInstr.ofWord w').dst = (RawInstr.ofWord w).dst) →
    (i.shape.readsSrc = true → (RawInstr.ofWord w').src = (RawInstr.ofWord w).src) →
    (i.shape.readsThird = true →
      (RawInstr.ofWord w').imm.toNat % 8 = (RawInstr.ofWord w).imm.toNat % 8) →
    (i.shape.readsImm = true → (RawInstr.ofWord w').imm = (RawInstr.ofWord w).imm) →
    decode w' = .ok i) ∧
  ∀ w : BitVec 32, BadRegister w → decode w = .error .invalidRegister

/-- Words written out from the encodings of 95_test_vectors.md decode to the instructions they stand for, one at least
per
family (30_encoding.md R91). -/
def Obligations.SampleWordsDecode : Prop :=
  decode 0x00031202#32 = .ok (.addr .r1 .r2 .r3) ∧
  decode 0x00091202#32 = .ok (.addr .r1 .r2 .r1) ∧
  decode 0x0004170F#32 = .ok (.ld .r1 .ip 0x0004) ∧
  decode 0xFFFE1210#32 = .ok (.st .r1 .r2 0xFFFE) ∧
  decode 0xFFF01215#32 = .ok (.jni .r1 .r2 0xFFF0) ∧
  decode 0x0FFC0018#32 = .ok (.call 0x0FFC) ∧
  decode 0x0000601A#32 = .ok (.pop .sp) ∧
  decode 0x0000001E#32 = .ok .rand

/-- When the four bytes at `IP` decode to an instruction and `IP` is at most 0xFFFC, the step is that instruction's
effect
on the same state, `IP` still at the instruction's own address (40_cycle.md R121, R123, R125). -/
def Obligations.StepRunsDecodedInstruction : Prop :=
  ∀ (s : State) (i : Instr), (s.reg .ip).toNat ≤ 0xFFFC → decode (wordAtIp s) = .ok i → step s = exec i s

/-- The checks of a step in their order: the fetch bound, the register check, the opcode check; a word that passes all
three is dispatched (40_cycle.md R120, R122, R123). -/
def Obligations.StepChecksInOrder : Prop :=
  ∀ s : State,
    ((s.reg .ip).toNat > 0xFFFC → step s = .fault .outOfBounds) ∧
    ((s.reg .ip).toNat ≤ 0xFFFC → BadRegister (wordAtIp s) → step s = .fault .invalidRegister) ∧
    ((s.reg .ip).toNat ≤ 0xFFFC → ¬ BadRegister (wordAtIp s) → (wordAtIp s).toNat % 256 > 0x1E →
      step s = .fault .invalidInstruction) ∧
    ((s.reg .ip).toNat ≤ 0xFFFC → ¬ BadRegister (wordAtIp s) → (wordAtIp s).toNat % 256 ≤ 0x1E →
      ∃ i : Instr, decode (wordAtIp s) = .ok i ∧ step s = exec i s)

/-- Once dispatched, an instruction goes to a next state, or raises `OutOfBounds`, and that only under
`TopWordAccess = fault`; it is never refused (40_cycle.md R126, 20_memory.md R55, 60_exceptions.md R361). -/
def Obligations.EffectsFaultOnlyAtTop : Prop :=
  ∀ (i : Instr) (s : State), (∃ t : State, exec i s = .next t) ∨
    (exec i s = .fault .outOfBounds ∧ s.cfg.topWordAccess = .fault)

/-- Every step keeps memory in its canonical form, whatever a registered handler returns (20_memory.md R50; log
entries 2
and 7). -/
def Obligations.StepKeepsInvariant : Prop :=
  ∀ s t : State, s.Inv → step s = .next t → t.Inv

/-- The state after reset meets the invariant (log entry 2). -/
def Obligations.ResetMeetsInvariant : Prop :=
  State.reset.Inv

/-- What create leaves: `SP`, `life` and the handler binding are fixed, every other value is the draw;
`State.reset` has the fixed values too (10_state.md R35). -/
def Obligations.CreateGivesResetState : Prop :=
  (∀ (d : ResetDraws) (cfg : Config),
    (State.create d cfg).reg .sp = 0xFFF0 ∧ (State.create d cfg).life = .sleeping ∧
    (State.create d cfg).sys = .default ∧ (State.create d cfg).prng = d.seed ∧ (State.create d cfg).mem = d.mem ∧
    (State.create d cfg).reg .ra = d.ra ∧ (State.create d cfg).reg .r1 = d.r1 ∧ (State.create d cfg).reg .r2 = d.r2 ∧
    (State.create d cfg).reg .r3 = d.r3 ∧ (State.create d cfg).reg .r4 = d.r4 ∧ (State.create d cfg).reg .r5 = d.r5 ∧
    (State.create d cfg).reg .ip = d.ip) ∧
  State.reset.reg .sp = 0xFFF0 ∧ State.reset.life = .sleeping ∧ State.reset.sys = .default

/-- Every host operation keeps memory in its canonical form (20_memory.md R60, R61, 47_image_loader.md R326; log entry
2). -/
def Obligations.HostOpsKeepInvariant : Prop :=
  ∀ (op : HostOp) (s : State), s.Inv → (hostStep op s).2.Inv

/-- `NEG`: two's complement negation. Its opcode is 0x01; it always completes (41_alu.md R140). -/
def Obligations.NegNegates : Prop :=
  (∀ (d a : Reg) (imm : Word), decode (wordOf 0x01 d a imm) = .ok (.neg d a)) ∧
  ∀ (d a : Reg) (s : State), ∃ t : State, exec (.neg d a) s = .next t ∧ WritesReg s d (0 - s.reg a) t

/-- `ADDR`: the sum of two registers modulo 2^16. Its opcode is 0x02; it always completes (41_alu.md R141). -/
def Obligations.AddrAdds : Prop :=
  (∀ (d a : Reg) (imm : Word), decode (wordOf 0x02 d a imm) = .ok (.addr d a (thirdReg imm))) ∧
  ∀ (d a b : Reg) (s : State), ∃ t : State, exec (.addr d a b) s = .next t ∧ WritesReg s d (s.reg a + s.reg b) t

/-- `ADDI`: the sum of a register and the immediate modulo 2^16. Its opcode is 0x03; it always completes (41_alu.md
R142). -/
def Obligations.AddiAdds : Prop :=
  (∀ (d a : Reg) (imm : Word), decode (wordOf 0x03 d a imm) = .ok (.addi d a imm)) ∧
  ∀ (d a : Reg) (v : Word) (s : State), ∃ t : State, exec (.addi d a v) s = .next t ∧ WritesReg s d (s.reg a + v) t

/-- `MULR`: the low 16 bits of the product of two registers. Its opcode is 0x04; it always completes (41_alu.md R143).
-/
def Obligations.MulrMultiplies : Prop :=
  (∀ (d a : Reg) (imm : Word), decode (wordOf 0x04 d a imm) = .ok (.mulr d a (thirdReg imm))) ∧
  ∀ (d a b : Reg) (s : State), ∃ t : State, exec (.mulr d a b) s = .next t ∧
    ∃ p : Word, p.toNat = (s.reg a).toNat * (s.reg b).toNat % 65536 ∧ WritesReg s d p t

/-- `MULI`: the low 16 bits of the product of a register and the immediate. Its opcode is 0x05; it always completes
(41_alu.md R144). -/
def Obligations.MuliMultiplies : Prop :=
  (∀ (d a : Reg) (imm : Word), decode (wordOf 0x05 d a imm) = .ok (.muli d a imm)) ∧
  ∀ (d a : Reg) (v : Word) (s : State), ∃ t : State, exec (.muli d a v) s = .next t ∧
    ∃ p : Word, p.toNat = (s.reg a).toNat * v.toNat % 65536 ∧ WritesReg s d p t

/-- `ANDR`: bitwise and of two registers. Its opcode is 0x06; it always completes (41_alu.md R145). -/
def Obligations.AndrAnds : Prop :=
  (∀ (d a : Reg) (imm : Word), decode (wordOf 0x06 d a imm) = .ok (.andr d a (thirdReg imm))) ∧
  ∀ (d a b : Reg) (s : State), ∃ t : State, exec (.andr d a b) s = .next t ∧ WritesReg s d (s.reg a &&& s.reg b) t

/-- `ANDI`: bitwise and with the immediate at full width. Its opcode is 0x07; it always completes (41_alu.md R146). -/
def Obligations.AndiAnds : Prop :=
  (∀ (d a : Reg) (imm : Word), decode (wordOf 0x07 d a imm) = .ok (.andi d a imm)) ∧
  ∀ (d a : Reg) (v : Word) (s : State), ∃ t : State, exec (.andi d a v) s = .next t ∧ WritesReg s d (s.reg a &&& v) t

/-- `ORR`: bitwise or of two registers. Its opcode is 0x08; it always completes (41_alu.md R147). -/
def Obligations.OrrOrs : Prop :=
  (∀ (d a : Reg) (imm : Word), decode (wordOf 0x08 d a imm) = .ok (.orr d a (thirdReg imm))) ∧
  ∀ (d a b : Reg) (s : State), ∃ t : State, exec (.orr d a b) s = .next t ∧ WritesReg s d (s.reg a ||| s.reg b) t

/-- `ORI`: bitwise or with the immediate. Its opcode is 0x09; it always completes (41_alu.md R148). -/
def Obligations.OriOrs : Prop :=
  (∀ (d a : Reg) (imm : Word), decode (wordOf 0x09 d a imm) = .ok (.ori d a imm)) ∧
  ∀ (d a : Reg) (v : Word) (s : State), ∃ t : State, exec (.ori d a v) s = .next t ∧ WritesReg s d (s.reg a ||| v) t

/-- `XORR`: bitwise exclusive or of two registers. Its opcode is 0x0A; it always completes (41_alu.md R149). -/
def Obligations.XorrXors : Prop :=
  (∀ (d a : Reg) (imm : Word), decode (wordOf 0x0A d a imm) = .ok (.xorr d a (thirdReg imm))) ∧
  ∀ (d a b : Reg) (s : State), ∃ t : State, exec (.xorr d a b) s = .next t ∧ WritesReg s d (s.reg a ^^^ s.reg b) t

/-- `XORI`: bitwise exclusive or with the immediate. Its opcode is 0x0B; it always completes (41_alu.md R150). -/
def Obligations.XoriXors : Prop :=
  (∀ (d a : Reg) (imm : Word), decode (wordOf 0x0B d a imm) = .ok (.xori d a imm)) ∧
  ∀ (d a : Reg) (v : Word) (s : State), ∃ t : State, exec (.xori d a v) s = .next t ∧ WritesReg s d (s.reg a ^^^ v) t

/-- `SHRR`: bit 3 of the amount register set shifts left, clear shifts right with zero fill, by its low 3 bits. Its
opcode is 0x0C; it always completes (41_alu.md R151, R152). -/
def Obligations.ShrrShifts : Prop :=
  (∀ (d a : Reg) (imm : Word), decode (wordOf 0x0C d a imm) = .ok (.shrr d a (thirdReg imm))) ∧
  ∀ (d a b : Reg) (s : State), ∃ t : State, exec (.shrr d a b) s = .next t ∧
    ∃ p : Word, p.toNat = (if (s.reg b).getLsbD 3 = true then (s.reg a).toNat * 2 ^ ((s.reg b).toNat % 8) % 65536
      else (s.reg a).toNat / 2 ^ ((s.reg b).toNat % 8)) ∧ WritesReg s d p t

/-- `SHRI`: bit 3 of the immediate set shifts left, clear shifts right with zero fill, by its low 3 bits. Its opcode
is 0x0D; it always completes (41_alu.md R151, R153). -/
def Obligations.ShriShifts : Prop :=
  (∀ (d a : Reg) (imm : Word), decode (wordOf 0x0D d a imm) = .ok (.shri d a imm)) ∧
  ∀ (d a : Reg) (v : Word) (s : State), ∃ t : State, exec (.shri d a v) s = .next t ∧
    ∃ p : Word, p.toNat = (if v.getLsbD 3 = true then (s.reg a).toNat * 2 ^ (v.toNat % 8) % 65536
      else (s.reg a).toNat / 2 ^ (v.toNat % 8)) ∧ WritesReg s d p t

/-- `NOT`: the bitwise or the logical complement, by `NotOp`. Its opcode is 0x0E; it always completes (41_alu.md
R154). -/
def Obligations.NotComplements : Prop :=
  (∀ (d a : Reg) (imm : Word), decode (wordOf 0x0E d a imm) = .ok (.not d a)) ∧
  ∀ (d a : Reg) (s : State), ∃ t : State, exec (.not d a) s = .next t ∧
    (s.cfg.notOp = .bitwise → WritesReg s d (0xFFFF ^^^ s.reg a) t) ∧
    (s.cfg.notOp = .logical → WritesReg s d (if s.reg a = 0 then 1 else 0) t)

/-- `MOVR`: the source register's value. Its opcode is 0x12; it always completes (42_move_memory.md R182). -/
def Obligations.MovrCopies : Prop :=
  (∀ (d a : Reg) (imm : Word), decode (wordOf 0x12 d a imm) = .ok (.movr d a)) ∧
  ∀ (d a : Reg) (s : State), ∃ t : State, exec (.movr d a) s = .next t ∧ WritesReg s d (s.reg a) t

/-- `MOVI`: the 16-bit literal. Its opcode is 0x13; it always completes (42_move_memory.md R183). -/
def Obligations.MoviLoadsLiteral : Prop :=
  (∀ (d a : Reg) (imm : Word), decode (wordOf 0x13 d a imm) = .ok (.movi d imm)) ∧ FieldsChecked 0x13 ∧
  ∀ (d : Reg) (v : Word) (s : State), ∃ t : State, exec (.movi d v) s = .next t ∧ WritesReg s d (v) t

/-- `LD`: `x[dst]` becomes the little-endian word at `x[src] + imm`; at 0xFFFF the second byte is at 0x0000, or under
`TopWordAccess = fault` it raises `OutOfBounds` (42_move_memory.md R180, 20_memory.md R55). -/
def Obligations.LdLoadsWord : Prop :=
  (∀ (d a : Reg) (imm : Word), decode (wordOf 0x0F d a imm) = .ok (.ld d a imm)) ∧
  ∀ (d a : Reg) (v : Word) (s : State),
    (¬ TopFaults s (s.reg a + v) → ∃ t : State, exec (.ld d a v) s = .next t ∧
      WritesReg s d (wordAt s (s.reg a + v)) t) ∧
    (TopFaults s (s.reg a + v) → exec (.ld d a v) s = .fault .outOfBounds)

/-- `ST`: `x[dst]` is stored little-endian at `x[src] + imm`; no register but `IP` changes and no other byte; at 0xFFFF
under `TopWordAccess = fault` it raises `OutOfBounds` (42_move_memory.md R181, 20_memory.md R55). -/
def Obligations.StStoresWord : Prop :=
  (∀ (d a : Reg) (imm : Word), decode (wordOf 0x10 d a imm) = .ok (.st d a imm)) ∧
  ∀ (d a : Reg) (v : Word) (s : State), s.Inv →
    (¬ TopFaults s (s.reg a + v) → ∃ t : State, exec (.st d a v) s = .next t ∧
      StoresWord s (s.reg a + v) (s.reg d) t ∧ SameControl s t ∧
      ∀ q : Reg, t.reg q = if q = .ip then s.reg .ip + 4 else s.reg q) ∧
    (TopFaults s (s.reg a + v) → exec (.st d a v) s = .fault .outOfBounds)

/-- `JEI`: taken when the two registers are equal. Nothing but `IP` changes (43_control.md R200). -/
def Obligations.JeiBranchesOnEqual : Prop :=
  (∀ (d a : Reg) (imm : Word), decode (wordOf 0x14 d a imm) = .ok (.jei d a imm)) ∧
  ∀ (d a : Reg) (v : Word) (s : State), ∃ t : State, exec (.jei d a v) s = .next t ∧
    (s.reg d = s.reg a → MovesTo s (s.reg .ip + v + 4) t) ∧ (¬ s.reg d = s.reg a → MovesTo s (s.reg .ip + 4) t)

/-- `JNI`: taken when the two registers differ. Nothing but `IP` changes (43_control.md R201). -/
def Obligations.JniBranchesOnUnequal : Prop :=
  (∀ (d a : Reg) (imm : Word), decode (wordOf 0x15 d a imm) = .ok (.jni d a imm)) ∧
  ∀ (d a : Reg) (v : Word) (s : State), ∃ t : State, exec (.jni d a v) s = .next t ∧
    (s.reg d ≠ s.reg a → MovesTo s (s.reg .ip + v + 4) t) ∧ (¬ s.reg d ≠ s.reg a → MovesTo s (s.reg .ip + 4) t)

/-- `JGI`: taken when the first register is greater, unsigned. Nothing but `IP` changes (43_control.md R202). -/
def Obligations.JgiBranchesOnGreater : Prop :=
  (∀ (d a : Reg) (imm : Word), decode (wordOf 0x16 d a imm) = .ok (.jgi d a imm)) ∧
  ∀ (d a : Reg) (v : Word) (s : State), ∃ t : State, exec (.jgi d a v) s = .next t ∧
    ((s.reg d).toNat > (s.reg a).toNat → MovesTo s (s.reg .ip + v + 4) t) ∧
    (¬ (s.reg d).toNat > (s.reg a).toNat → MovesTo s (s.reg .ip + 4) t)

/-- `JZI`: taken when the register is zero. Nothing but `IP` changes (43_control.md R203). -/
def Obligations.JziBranchesOnZero : Prop :=
  (∀ (d a : Reg) (imm : Word), decode (wordOf 0x17 d a imm) = .ok (.jzi d imm)) ∧ FieldsChecked 0x17 ∧
  ∀ (d : Reg) (v : Word) (s : State), ∃ t : State, exec (.jzi d v) s = .next t ∧
    (s.reg d = 0 → MovesTo s (s.reg .ip + v + 4) t) ∧ (¬ s.reg d = 0 → MovesTo s (s.reg .ip + 4) t)

/-- `CALL`: the return address `IP + 4` is pushed at `SP - 2` and control continues at `IP + imm + 4`; a push at 0xFFFF
under `TopWordAccess = fault` raises `OutOfBounds` (43_control.md R205). -/
def Obligations.CallPushesReturnAddress : Prop :=
  (∀ (d a : Reg) (imm : Word), decode (wordOf 0x18 d a imm) = .ok (.call imm)) ∧ FieldsChecked 0x18 ∧
  ∀ (v : Word) (s : State), s.Inv →
    (¬ TopFaults s (s.reg .sp - 2) → ∃ t : State, exec (.call v) s = .next t ∧
      StoresWord s (s.reg .sp - 2) (s.reg .ip + 4) t ∧ SameControl s t ∧
      ∀ q : Reg, t.reg q =
        if q = .ip then s.reg .ip + v + 4 else if q = .sp then s.reg .sp - 2 else s.reg q) ∧
    (TopFaults s (s.reg .sp - 2) → exec (.call v) s = .fault .outOfBounds)

/-- `RET`: `IP` becomes exactly the word at `SP`, with no trailing increment, and `SP` goes up by 2; at `SP = 0xFFFF`
under
`TopWordAccess = fault` it raises `OutOfBounds` (43_control.md R206). -/
def Obligations.RetPopsIp : Prop :=
  (∀ (d a : Reg) (imm : Word), decode (wordOf 0x19 d a imm) = .ok .ret) ∧ FieldsChecked 0x19 ∧
  ∀ s : State,
    (¬ TopFaults s (s.reg .sp) → ∃ t : State, exec .ret s = .next t ∧ SameMemory s t ∧ SameControl s t ∧
      ∀ q : Reg, t.reg q =
        if q = .ip then wordAt s (s.reg .sp) else if q = .sp then s.reg .sp + 2 else s.reg q) ∧
    (TopFaults s (s.reg .sp) → exec .ret s = .fault .outOfBounds)

/-- `POP dst`: `dst` becomes the word at `SP` and `SP` goes up by 2; with `dst = IP` the trailing increment applies to
the
popped value; with `dst = SP` the result is by `PopSpResult`; at `SP = 0xFFFF` under `TopWordAccess = fault` it raises
`OutOfBounds` (44_stack.md R231). -/
def Obligations.PopLoadsFromStack : Prop :=
  (∀ (d a : Reg) (imm : Word), decode (wordOf 0x1A d a imm) = .ok (.pop d)) ∧ FieldsChecked 0x1A ∧
  ∀ (d : Reg) (s : State),
    (¬ TopFaults s (s.reg .sp) → ∃ t : State, exec (.pop d) s = .next t ∧ SameMemory s t ∧ SameControl s t ∧
      ∀ q : Reg, t.reg q =
        if q = .ip then (if d = .ip then wordAt s (s.reg .sp) else s.reg .ip) + 4
        else if q = .sp then
          (if d = .sp then
            (if s.cfg.popSpResult = .loaded then wordAt s (s.reg .sp) else wordAt s (s.reg .sp) + 2)
          else s.reg .sp + 2)
        else if q = d then wordAt s (s.reg .sp) else s.reg q) ∧
    (TopFaults s (s.reg .sp) → exec (.pop d) s = .fault .outOfBounds)

/-- `PUSH dst`: `x[dst]` is stored at `SP - 2` and `SP` goes down by 2; with `dst = SP` the value stored is by
`PushSpValue`; a push at 0xFFFF under `TopWordAccess = fault` raises `OutOfBounds` (44_stack.md R232). -/
def Obligations.PushStoresOnStack : Prop :=
  (∀ (d a : Reg) (imm : Word), decode (wordOf 0x1B d a imm) = .ok (.push d)) ∧ FieldsChecked 0x1B ∧
  ∀ (d : Reg) (s : State), s.Inv →
    (¬ TopFaults s (s.reg .sp - 2) → ∃ t : State, exec (.push d) s = .next t ∧
      StoresWord s (s.reg .sp - 2)
        (if d = .sp then (if s.cfg.pushSpValue = .new then s.reg .sp - 2 else s.reg .sp) else s.reg d) t ∧
      SameControl s t ∧
      ∀ q : Reg, t.reg q =
        if q = .ip then s.reg .ip + 4 else if q = .sp then s.reg .sp - 2 else s.reg q) ∧
    (TopFaults s (s.reg .sp - 2) → exec (.push d) s = .fault .outOfBounds)

/-- `PUSI imm`: the literal is stored at `SP - 2` and `SP` goes down by 2; a push at 0xFFFF under `TopWordAccess =
fault`
raises `OutOfBounds` (44_stack.md R233). -/
def Obligations.PusiStoresLiteral : Prop :=
  (∀ (d a : Reg) (imm : Word), decode (wordOf 0x1C d a imm) = .ok (.pusi imm)) ∧ FieldsChecked 0x1C ∧
  ∀ (v : Word) (s : State), s.Inv →
    (¬ TopFaults s (s.reg .sp - 2) → ∃ t : State, exec (.pusi v) s = .next t ∧
      StoresWord s (s.reg .sp - 2) v t ∧ SameControl s t ∧
      ∀ q : Reg, t.reg q =
        if q = .ip then s.reg .ip + 4 else if q = .sp then s.reg .sp - 2 else s.reg q) ∧
    (TopFaults s (s.reg .sp - 2) → exec (.pusi v) s = .fault .outOfBounds)

/-- `NOP`: the trailing increment and nothing else (45_system.md R250). -/
def Obligations.NopOnlyAdvances : Prop :=
  (∀ (d a : Reg) (imm : Word), decode (wordOf 0x00 d a imm) = .ok .nop) ∧ FieldsChecked 0x00 ∧
  ∀ s : State, ∃ t : State, exec .nop s = .next t ∧ MovesTo s (s.reg .ip + 4) t

/-- `HLT`: no state of the VM is written and `IP` stays; the run ends with `Halt` (45_system.md R251). That the model
tells
the halt by its own field `halted` is log entry 5. -/
def Obligations.HltStopsTheRun : Prop :=
  (∀ (d a : Reg) (imm : Word), decode (wordOf 0x11 d a imm) = .ok .hlt) ∧ FieldsChecked 0x11 ∧
  (∀ s : State, ∃ t : State, exec .hlt s = .next t ∧ t.halted = true ∧ (∀ q : Reg, t.reg q = s.reg q) ∧
    SameMemory s t ∧ t.prng = s.prng ∧ t.life = s.life ∧ t.sys = s.sys ∧ t.io = s.io ∧ t.cfg = s.cfg) ∧
  ∀ (s : State) (fuel : Nat) (count : Int), s.life = .sleeping → count ≠ 0 → (s.reg .ip).toNat ≤ 0xFFFC →
    decode (wordAtIp s) = .ok .hlt →
    ∃ t : State, execute (fuel + 1) count s = some (.halt, t) ∧ t.life = .sleeping ∧
      (∀ q : Reg, t.reg q = s.reg q) ∧ SameMemory s t ∧ t.prng = s.prng ∧ t.sys = s.sys ∧ t.io = s.io

/-- `SYS` under the default handler: `RA = 0` reads a byte, `RA = 1` writes the low byte of `R1`, any other `RA`
returns 0
with no I/O; the result goes to `RA`, and no other register, no memory and no PRNG state changes (45_system.md R256,
R257, R258). Which outcome a read or write has is the host's or a free value (log entry 4). -/
def Obligations.SysDefaultHandler : Prop :=
  (∀ (d a : Reg) (imm : Word), decode (wordOf 0x1D d a imm) = .ok .sys) ∧ FieldsChecked 0x1D ∧
  ∀ s : State, s.sys = .default → ∃ t : State, exec .sys s = .next t ∧
    (∀ q : Reg, q ≠ .ra → t.reg q = if q = .ip then s.reg .ip + 4 else s.reg q) ∧ SameMemory s t ∧
    t.prng = s.prng ∧ t.life = s.life ∧ t.sys = s.sys ∧ t.halted = s.halted ∧ t.cfg = s.cfg ∧
    (s.reg .ra = 0 →
      t.io.stdin = s.io.stdin.tail ∧ t.io.writeResults = s.io.writeResults ∧ t.io.writes = s.io.writes ∧
      t.io.stdout = s.io.stdout ∧ (s.io.stdin ≠ [] → t.io.reads = s.io.reads) ∧
      (s.io.stdin = [] → t.io.reads = s.io.reads + 1) ∧
      (∀ b : Byte, readOutcome s.io = .byte b → (t.reg .ra).toNat = b.toNat) ∧
      (readOutcome s.io = .failure → t.reg .ra = 0xFFFF)) ∧
    (s.reg .ra = 1 →
      t.io.writeResults = s.io.writeResults.tail ∧ t.io.stdin = s.io.stdin ∧ t.io.reads = s.io.reads ∧
      (s.io.writeResults ≠ [] → t.io.writes = s.io.writes) ∧
      (s.io.writeResults = [] → t.io.writes = s.io.writes + 1) ∧
      (writeOutcome s.io = .success →
        t.reg .ra = 0 ∧ t.io.stdout = s.io.stdout ++ [(s.reg .r1).extractLsb' 0 8]) ∧
      (writeOutcome s.io = .failure → t.reg .ra = 0xFFFF ∧ t.io.stdout = s.io.stdout)) ∧
    (s.reg .ra ≠ 0 → s.reg .ra ≠ 1 → t.reg .ra = 0 ∧ t.io = s.io)

/-- `SYS` under a registered handler: the context it returns replaces registers, memory and PRNG state, its result then
goes to `RA`, and the trailing increment applies to the `IP` it left (45_system.md R252, R253, R256). What the handler
returns is a free value, and the memory it returns is put in canonical form, which leaves a canonical one as it is (log
entry 7). -/
def Obligations.SysRegisteredHandler : Prop :=
  (∀ m : Memory, Memory.wf (Memory.canon m) = true ∧ (Memory.wf m = true → Memory.canon m = m)) ∧
  ∀ (n : Nat) (s : State), s.sys = .registered n → ∃ (t : State) (c : Context) (r : Word),
    Config.syscallHandler n { regs := s.regs, mem := s.mem, prng := s.prng } = (c, r) ∧ exec .sys s = .next t ∧
    (∀ q : Reg, t.reg q = if q = .ra then r else if q = .ip then c.regs.ip + 4 else c.regs.get q) ∧
    t.prng = c.prng ∧ t.mem = Memory.canon c.mem ∧
    t.life = s.life ∧ t.sys = s.sys ∧ t.io = s.io ∧ t.halted = s.halted ∧ t.cfg = s.cfg

/-- `RAND`: the state goes through the three xorshift steps, the product with 2685821657736338717 is only the output,
and
its low 16 bits go to `RA` (45_system.md R260, R261). -/
def Obligations.RandDrawsFromGenerator : Prop :=
  (∀ (d a : Reg) (imm : Word), decode (wordOf 0x1E d a imm) = .ok .rand) ∧ FieldsChecked 0x1E ∧
  ∀ s : State, ∃ (t : State) (x y : BitVec 64), exec .rand s = .next t ∧
    x = s.prng ^^^ (s.prng >>> 12) ∧ y = x ^^^ (x <<< 25) ∧ t.prng = y ^^^ (y >>> 27) ∧
    (t.reg .ra).toNat = t.prng.toNat * 2685821657736338717 % 2 ^ 64 % 2 ^ 16 ∧
    (∀ q : Reg, q ≠ .ra → t.reg q = if q = .ip then s.reg .ip + 4 else s.reg q) ∧ SameMemory s t ∧
    t.life = s.life ∧ t.sys = s.sys ∧ t.io = s.io ∧ t.halted = s.halted ∧ t.cfg = s.cfg

/-- A `CALL` and then a `RET` come back to the instruction after the `CALL` with `SP` as it was before
(43_control.md R205 to R207). -/
def Obligations.CallThenRetReturns : Prop :=
  ∀ (v : Word) (s : State), s.Inv → ¬ TopFaults s (s.reg .sp - 2) →
    ∃ t u : State, exec (.call v) s = .next t ∧ exec .ret t = .next u ∧ u.reg .ip = s.reg .ip + 4 ∧
      (∀ q : Reg, q ≠ .ip → u.reg q = s.reg q) ∧ SameControl s u

/-- A `PUSH` and then a `POP` into a register other than `SP` and `IP` copy the pushed value there and leave `SP` as
it was
(44_stack.md R230 to R232). -/
def Obligations.PushThenPopRestores : Prop :=
  ∀ (d e : Reg) (s : State), s.Inv → ¬ TopFaults s (s.reg .sp - 2) → d ≠ .sp → e ≠ .sp → e ≠ .ip →
    ∃ t u : State, exec (.push d) s = .next t ∧ exec (.pop e) t = .next u ∧ u.reg e = s.reg d ∧
      u.reg .sp = s.reg .sp ∧ u.reg .ip = s.reg .ip + 8 ∧
      (∀ q : Reg, q ≠ e → q ≠ .ip → u.reg q = s.reg q) ∧ SameControl s u

/-- No instruction changes the lifecycle, the handler binding or the open parameters: only host operations do
(10_state.md R29 to R31). -/
def Obligations.StepsKeepLifeHandlerConfig : Prop :=
  ∀ s t : State, step s = .next t → t.life = s.life ∧ t.sys = s.sys ∧ t.cfg = s.cfg

/-- Every instruction but `RAND`, and but `SYS` under a registered handler, neither reads nor writes the PRNG state:
with another PRNG state it does the same and leaves that one in place (10_state.md R27, 45_system.md R253). -/
def Obligations.OnlyRandUsesPrng : Prop :=
  ∀ (i : Instr) (s : State) (p : BitVec 64), i ≠ .rand → (i = .sys → s.sys = .default) →
    (∀ t : State, exec i s = .next t → t.prng = s.prng ∧ exec i { s with prng := p } = .next { t with prng := p }) ∧
    (∀ f : Fault, exec i s = .fault f → exec i { s with prng := p } = .fault f)

/-- On a VM that is not `Sleeping` every host operation, and `execute`, fails with `InvalidState` and leaves the VM as
it
was; so `Freed` is final (60_exceptions.md R370, 40_cycle.md R128, 10_state.md R30). The guard of `execute`, `load`,
`register_syscall_handler`, `dump_context` and `destroy` is the spec's own decision (D16, D24, D32; log entry 15). -/
def Obligations.LifecycleGuardsEveryOperation : Prop :=
  ∀ s : State, s.life ≠ .sleeping →
    (∀ op : HostOp, hostStep op s = (.failed .invalidState, s)) ∧
    ∀ (fuel : Nat) (count : Int), execute fuel count s = some (.invalidState, s)

/-- A budget of `n` runs at most `n` steps: `execute` returns within them, with the VM `Sleeping` and one of the reasons
of a run (40_cycle.md R127, R131, 60_exceptions.md R364). The reason `BudgetExhausted` is the spec's own decision (D15;
log entry 15), and the fuel is the model's (log entry 12). -/
def Obligations.ExecuteReturnsWithinBudget : Prop :=
  ∀ (n fuel : Nat) (s : State), s.life = .sleeping → n ≤ fuel →
    ∃ (r : StopReason) (t : State), execute fuel (n : Int) s = some (r, t) ∧ t.life = .sleeping ∧
      (r = .halt ∨ r = .budgetExhausted ∨ r = .outOfBounds ∨ r = .invalidRegister ∨ r = .invalidInstruction)

/-- What `execute` answers does not depend on how many steps the model allows it, once it has returned: the fuel is no
part
of the machine (40_cycle.md R127). -/
def Obligations.ExecuteAnswerIsStable : Prop :=
  ∀ (fuel more : Nat) (count : Int) (s : State) (r : StopReason) (t : State),
    execute fuel count s = some (r, t) → execute (fuel + more) count s = some (r, t)

/-- A run stopped by its budget goes on where it stopped: `execute(m)` that exhausts its budget, then `execute(n)`, is
`execute(m + n)` (40_cycle.md R127, 70_reset_and_hazards.md R411). The reason `BudgetExhausted` is the spec's own
decision (D15; log entry 15), and the fuel is the model's (log entry 12). -/
def Obligations.BudgetExhaustedIsAPause : Prop :=
  ∀ (m n fuel more : Nat) (s t u : State) (r : StopReason),
    execute fuel (m : Int) s = some (.budgetExhausted, t) → execute more (n : Int) t = some (r, u) →
    execute (fuel + more) ((m : Int) + (n : Int)) s = some (r, u)

/-- After a `Halt` a further `execute` halts again at once and leaves the VM as it is (40_cycle.md R130). -/
def Obligations.HaltRepeats : Prop :=
  ∀ (fuel more : Nat) (count again : Int) (s t : State), execute fuel count s = some (.halt, t) → again ≠ 0 →
    execute (more + 1) again t = some (.halt, t)

/-- After a fault a further `execute` raises the same fault and leaves the VM as it is (40_cycle.md R129). -/
def Obligations.FaultRepeats : Prop :=
  ∀ (fuel more : Nat) (count again : Int) (s t : State) (f : Fault),
    execute fuel count s = some (StopReason.ofFault f, t) → again ≠ 0 →
    execute (more + 1) again t = some (StopReason.ofFault f, t)

/-- `write_mem` and `read_mem`: the lifecycle check, then the strict bound; a write within it changes exactly the bytes
given, a read within it answers the bytes in place (20_memory.md R60). -/
def Obligations.WriteMemAndReadMem : Prop :=
  (∀ (addr : Word) (bytes : List Byte) (s : State), s.Inv → s.life = .sleeping →
    (addr.toNat + bytes.length ≥ 0x10000 → writeMem addr bytes s = .error .outOfBounds) ∧
    (addr.toNat + bytes.length < 0x10000 → ∃ t : State, writeMem addr bytes s = .ok t ∧
      (∀ a : Word, t.byte a = covered addr bytes a (s.byte a)) ∧ t.regs = s.regs ∧ SameControl s t)) ∧
  (∀ (addr : Word) (len : Nat) (s : State), s.life = .sleeping →
    (addr.toNat + len ≥ 0x10000 → readMem addr len s = .error .outOfBounds) ∧
    (addr.toNat + len < 0x10000 → ∃ bs : List Byte, readMem addr len s = .ok bs ∧ bs.length = len ∧
      ∀ k : Nat, k < len → bs[k]? = some (s.byte (addr + BitVec.ofNat 16 k)))) ∧
  ∀ (addr : Word) (bytes : List Byte) (len : Nat) (s : State), s.life ≠ .sleeping →
    writeMem addr bytes s = .error .invalidState ∧ readMem addr len s = .error .invalidState

/-- `put_code`: within the strict bound the words are in memory in order, `IP` is at the first, nothing else changes,
and
the next step runs the first instruction; beyond it `OutOfBounds`; `InvalidState` unless `Sleeping`.
No host operation but it and `load` writes `IP` (20_memory.md R61). -/
def Obligations.PutCodePlacesProgram : Prop :=
  (∀ (addr : Word) (code : List RawInstr) (s : State), s.Inv → s.life = .sleeping →
    (addr.toNat + 4 * code.length ≥ 0x10000 → putCode addr code s = .error .outOfBounds) ∧
    (addr.toNat + 4 * code.length < 0x10000 → ∃ t : State, putCode addr code s = .ok t ∧ t.reg .ip = addr ∧
      (∀ q : Reg, q ≠ .ip → t.reg q = s.reg q) ∧ SameControl s t ∧
      (∀ a : Word, t.byte a =
        covered addr (code.flatMap fun f => [f.toWord.extractLsb' 0 8, f.toWord.extractLsb' 8 8,
          f.toWord.extractLsb' 16 8, f.toWord.extractLsb' 24 8]) a (s.byte a)) ∧
      ∀ (i : Instr) (rest : List RawInstr), code = i.toRaw :: rest → step t = exec i t)) ∧
  (∀ (op : HostOp) (s : State), (∀ (a : Word) (c : List RawInstr), op ≠ .putCode a c) →
    (∀ (p : ImageParams) (src : ByteSource), op ≠ .load p src) → (hostStep op s).2.reg .ip = s.reg .ip) ∧
  ∀ (addr : Word) (code : List RawInstr) (s : State), s.life ≠ .sleeping → putCode addr code s = .error .invalidState

/-- Encoding any bytes with the bit-letter scheme and decoding gives them back, 8 characters a byte; a group with a
character that is neither `C1` nor `C0` is a `DecodeError` (47_image_loader.md R320 to R322, 90_conflicts.md C7). -/
def Obligations.CodecRoundTrip : Prop :=
  ∀ p : ImageParams,
    (∀ bs : List Byte, decodeChars p (encodeChars p bs) = .ok bs ∧ (encodeChars p bs).length = 8 * bs.length) ∧
    ∀ (cs : List Byte) (c : Byte), c ∈ cs → c ≠ bitChar p true → c ≠ bitChar p false →
      decodeChars p cs = .error .decodeError

/-- Loading the encoding of an image whose sections end below 0xFFFF, followed by any characters: the sections are in
memory, a later one over an earlier one, `IP` is the entry, nothing else changes, and the characters after the last
section are left unread (47_image_loader.md R324, R326, R329 to R331). That they are left unread and that the entry is
not checked are the spec's own decisions (D20, D24; log entry 15). -/
def Obligations.LoadOfEncodedImage : Prop :=
  ∀ (p : ImageParams) (img : Image) (extra : List Byte) (ending : SourceEnd) (s : State), s.Inv →
    s.life = .sleeping → img.sections.length < 0x10000 →
    (∀ sec : Word × List Byte, sec ∈ img.sections → sec.1.toNat + sec.2.length < 0x10000) →
    ∃ t : State, load p { chars := encodeImage p img ++ extra, ending := ending } s
        = .ok (t, { chars := extra, ending := ending }) ∧
      t.reg .ip = img.entry ∧ (∀ q : Reg, q ≠ .ip → t.reg q = s.reg q) ∧ SameControl s t ∧
      ∀ a : Word, t.byte a = overlay img.sections a (s.byte a)

/-- A word disassembles with `ok` exactly when the engine's register and opcode checks pass for it; otherwise the line
is
the placeholder (46_disassembler.md R281). -/
def Obligations.DisassemblyFollowsDecoder : Prop :=
  ∀ (p : DisasmParams) (a : Word) (w : BitVec 32),
    ((disasm p a w).2 = true ↔ ¬ BadRegister w ∧ w.toNat % 256 ≤ 0x1E) ∧
    ((disasm p a w).2 = false → (disasm p a w).1 = p.placeholder)

/-- The `JMP` idiom: `ADDI IP, IP, imm` at `a` prints as `JMP` with the target `a + imm + 4`, any other `ADDI` prints as
itself, executing the idiom there continues at that target, and the encoding of `JMP t` reaches `t`
(46_disassembler.md R287, 30_encoding.md R97). -/
def Obligations.JumpIdiomReachesPrintedTarget : Prop :=
  (∀ (p : DisasmParams) (a imm : Word), disasm p a (encode (.addi .ip .ip imm))
      = (padRight ['J', 'M', 'P'] p.mnemonicWidth ++ hex4 p.hexCase (a + imm + 4), true)) ∧
  (∀ (p : DisasmParams) (a imm : Word) (d b : Reg), ¬ (d = .ip ∧ b = .ip) →
    disasm p a (encode (.addi d b imm)) = (padRight ['A', 'D', 'D', 'I'] p.mnemonicWidth ++
      (regText d ++ [','] ++ regText b ++ [','] ++ hex4 p.hexCase imm), true)) ∧
  (∀ (imm : Word) (s : State), ∃ t : State, exec (.addi .ip .ip imm) s = .next t ∧
    MovesTo s (s.reg .ip + imm + 4) t) ∧
  ∀ (target : Word) (s : State), ∃ t : State, exec (Instr.jmp (s.reg .ip) target) s = .next t ∧ MovesTo s target t
end

