-- ==== Sys2Proof/Laws/State.lean ====
section
/-!
SUPPORT. One lemma per field per update of the state, so that no later proof unfolds a record update.
-/
namespace Sys2Proof.Machine

/-! ## Registers -/

theorem Regs.get_set (x : Regs) (r q : Reg) (v : Word) : (x.set r v).get q = if q = r then v else x.get q := by
  cases r <;> cases q <;> rfl

@[simp] theorem State.setReg_mem (s : State) (r : Reg) (v : Word) : (s.setReg r v).mem = s.mem := rfl
@[simp] theorem State.setReg_prng (s : State) (r : Reg) (v : Word) : (s.setReg r v).prng = s.prng := rfl
@[simp] theorem State.setReg_life (s : State) (r : Reg) (v : Word) : (s.setReg r v).life = s.life := rfl
@[simp] theorem State.setReg_sys (s : State) (r : Reg) (v : Word) : (s.setReg r v).sys = s.sys := rfl
@[simp] theorem State.setReg_io (s : State) (r : Reg) (v : Word) : (s.setReg r v).io = s.io := rfl
@[simp] theorem State.setReg_halted (s : State) (r : Reg) (v : Word) : (s.setReg r v).halted = s.halted := rfl
@[simp] theorem State.setReg_cfg (s : State) (r : Reg) (v : Word) : (s.setReg r v).cfg = s.cfg := rfl
@[simp] theorem State.setReg_byte (s : State) (r : Reg) (v : Word) (a : Word) : (s.setReg r v).byte a = s.byte a := rfl

/-- Reading a register after writing one. -/
theorem State.reg_setReg (s : State) (r q : Reg) (v : Word) :
    (s.setReg r v).reg q = if q = r then v else s.reg q := Regs.get_set s.regs r q v

@[simp] theorem State.reg_setReg_self (s : State) (r : Reg) (v : Word) : (s.setReg r v).reg r = v := by
  rw [State.reg_setReg, if_pos rfl]

theorem State.reg_setReg_ne (s : State) (r q : Reg) (v : Word) (h : q ≠ r) : (s.setReg r v).reg q = s.reg q := by
  rw [State.reg_setReg, if_neg h]

/-! ## Bytes -/

@[simp] theorem State.setByte_regs (s : State) (a : Word) (b : Byte) : (s.setByte a b).regs = s.regs := rfl
@[simp] theorem State.setByte_reg (s : State) (a : Word) (b : Byte) (q : Reg) : (s.setByte a b).reg q = s.reg q := rfl
@[simp] theorem State.setByte_prng (s : State) (a : Word) (b : Byte) : (s.setByte a b).prng = s.prng := rfl
@[simp] theorem State.setByte_life (s : State) (a : Word) (b : Byte) : (s.setByte a b).life = s.life := rfl
@[simp] theorem State.setByte_sys (s : State) (a : Word) (b : Byte) : (s.setByte a b).sys = s.sys := rfl
@[simp] theorem State.setByte_io (s : State) (a : Word) (b : Byte) : (s.setByte a b).io = s.io := rfl
@[simp] theorem State.setByte_halted (s : State) (a : Word) (b : Byte) : (s.setByte a b).halted = s.halted := rfl
@[simp] theorem State.setByte_cfg (s : State) (a : Word) (b : Byte) : (s.setByte a b).cfg = s.cfg := rfl

@[simp] theorem State.setWord_regs (s : State) (a v : Word) : (s.setWord a v).regs = s.regs := rfl
@[simp] theorem State.setWord_reg (s : State) (a v : Word) (q : Reg) : (s.setWord a v).reg q = s.reg q := rfl
@[simp] theorem State.setWord_prng (s : State) (a v : Word) : (s.setWord a v).prng = s.prng := rfl
@[simp] theorem State.setWord_life (s : State) (a v : Word) : (s.setWord a v).life = s.life := rfl
@[simp] theorem State.setWord_sys (s : State) (a v : Word) : (s.setWord a v).sys = s.sys := rfl
@[simp] theorem State.setWord_io (s : State) (a v : Word) : (s.setWord a v).io = s.io := rfl
@[simp] theorem State.setWord_halted (s : State) (a v : Word) : (s.setWord a v).halted = s.halted := rfl
@[simp] theorem State.setWord_cfg (s : State) (a v : Word) : (s.setWord a v).cfg = s.cfg := rfl

/-- Writing bytes changes memory and nothing else. -/
theorem State.setBytes_frame (bs : List Byte) : ∀ (s : State) (a : Word),
    (s.setBytes a bs).regs = s.regs ∧ SameControl s (s.setBytes a bs) := by
  induction bs with
  | nil => intro s a; exact ⟨rfl, rfl, rfl, rfl, rfl, rfl, rfl⟩
  | cons b bs ih => intro s a; exact ih (s.setByte a b) (a + 1)

/-! ## The end of an instruction, and the start and end of a run -/

@[simp] theorem State.advance_mem (s : State) : s.advance.mem = s.mem := rfl
@[simp] theorem State.advance_prng (s : State) : s.advance.prng = s.prng := rfl
@[simp] theorem State.advance_life (s : State) : s.advance.life = s.life := rfl
@[simp] theorem State.advance_sys (s : State) : s.advance.sys = s.sys := rfl
@[simp] theorem State.advance_io (s : State) : s.advance.io = s.io := rfl
@[simp] theorem State.advance_halted (s : State) : s.advance.halted = s.halted := rfl
@[simp] theorem State.advance_cfg (s : State) : s.advance.cfg = s.cfg := rfl
@[simp] theorem State.advance_byte (s : State) (a : Word) : s.advance.byte a = s.byte a := rfl

/-- The trailing increment moves `IP` by 4 and no other register. -/
theorem State.reg_advance (s : State) (q : Reg) : s.advance.reg q = if q = .ip then s.reg .ip + 4 else s.reg q :=
  State.reg_setReg s .ip q _

@[simp] theorem State.begin_regs (s : State) : s.begin.regs = s.regs := rfl
@[simp] theorem State.begin_mem (s : State) : s.begin.mem = s.mem := rfl
@[simp] theorem State.begin_life (s : State) : s.begin.life = .executing := rfl
@[simp] theorem State.begin_halted (s : State) : s.begin.halted = false := rfl
@[simp] theorem State.sleep_regs (s : State) : s.sleep.regs = s.regs := rfl
@[simp] theorem State.sleep_mem (s : State) : s.sleep.mem = s.mem := rfl
@[simp] theorem State.sleep_life (s : State) : s.sleep.life = .sleeping := rfl
@[simp] theorem State.sleep_halted (s : State) : s.sleep.halted = s.halted := rfl

end Sys2Proof.Machine
end

