-- ==== Sys2Proof/Laws/Memory.lean ====
section
/-!
SUPPORT. The laws of memory: every operation keeps the canonical form; a read after a write to the same place gives the
value written, and a write leaves every other place alone (20_memory.md R62).
-/
namespace Sys2Proof.Machine

/-! ## The list of cells -/

theorem Memory.wfFrom_mono : ∀ (m : Memory) (lo lo' : Nat), lo' ≤ lo → Memory.wfFrom lo m = true →
    Memory.wfFrom lo' m = true
  | [], _, _, _, _ => rfl
  | (k, v) :: rest, lo, lo', h, hw => by
    simp only [Memory.wfFrom, Bool.and_eq_true, decide_eq_true_eq] at hw ⊢
    exact ⟨⟨⟨Nat.le_trans h hw.1.1.1, hw.1.1.2⟩, hw.1.2⟩, hw.2⟩

/-- A canonical memory lists nothing below its lower bound. -/
theorem Memory.read_below : ∀ (m : Memory) (lo a : Nat), Memory.wfFrom lo m = true → a < lo →
    Memory.read m a = Memory.unlisted
  | [], _, _, _, _ => rfl
  | (k, v) :: rest, lo, a, hw, h => by
    simp only [Memory.wfFrom, Bool.and_eq_true, decide_eq_true_eq] at hw
    have hk : a ≠ k := by omega
    simp only [Memory.read, if_neg hk]
    exact Memory.read_below rest (k + 1) a hw.2 (by omega)

/-- A write keeps the canonical form. -/
theorem Memory.wfFrom_write : ∀ (m : Memory) (lo a : Nat) (b : Byte), Memory.wfFrom lo m = true → lo ≤ a →
    a < 0x10000 → Memory.wfFrom lo (Memory.write m a b) = true
  | [], lo, a, b, _, hlo, ha => by
    by_cases hb : b = Memory.unlisted
    · simp only [Memory.write, if_pos hb, Memory.wfFrom]
    · simp only [Memory.write, if_neg hb, Memory.wfFrom, Bool.and_eq_true, decide_eq_true_eq]
      exact ⟨⟨⟨hlo, ha⟩, hb⟩, trivial⟩
  | (k, v) :: rest, lo, a, b, hw, hlo, ha => by
    have hw' := hw
    simp only [Memory.wfFrom, Bool.and_eq_true, decide_eq_true_eq] at hw'
    obtain ⟨⟨⟨h1, h2⟩, h3⟩, h4⟩ := hw'
    by_cases hak : a < k
    · by_cases hb : b = Memory.unlisted
      · simpa only [Memory.write, if_pos hak, if_pos hb] using hw
      · simp only [Memory.write, if_pos hak, if_neg hb, Memory.wfFrom, Bool.and_eq_true, decide_eq_true_eq]
        exact ⟨⟨⟨hlo, ha⟩, hb⟩, ⟨⟨by omega, h2⟩, h3⟩, h4⟩
    · by_cases hek : a = k
      · by_cases hb : b = Memory.unlisted
        · simp only [Memory.write, if_neg hak, if_pos hek, if_pos hb]
          exact Memory.wfFrom_mono rest (k + 1) lo (by omega) h4
        · simp only [Memory.write, if_neg hak, if_pos hek, if_neg hb, Memory.wfFrom, Bool.and_eq_true,
            decide_eq_true_eq]
          exact ⟨⟨⟨hlo, ha⟩, hb⟩, hek ▸ h4⟩
      · simp only [Memory.write, if_neg hak, if_neg hek, Memory.wfFrom, Bool.and_eq_true, decide_eq_true_eq]
        exact ⟨⟨⟨h1, h2⟩, h3⟩, Memory.wfFrom_write rest (k + 1) a b h4 (by omega) ha⟩

/-- A write keeps the canonical form. -/
theorem Memory.wf_write (m : Memory) (a : Nat) (b : Byte) (h : Memory.wf m = true) (ha : a < 0x10000) :
    Memory.wf (Memory.write m a b) = true := Memory.wfFrom_write m 0 a b h (Nat.zero_le a) ha

/-- A read of another address does not see a write. -/
theorem Memory.read_write_ne : ∀ (m : Memory) (a c : Nat) (b : Byte), c ≠ a →
    Memory.read (Memory.write m a b) c = Memory.read m c
  | [], a, c, b, h => by
    by_cases hb : b = Memory.unlisted <;> simp [Memory.write, Memory.read, hb, h]
  | (k, v) :: rest, a, c, b, h => by
    by_cases hak : a < k
    · by_cases hb : b = Memory.unlisted <;> simp [Memory.write, Memory.read, hak, hb, h]
    · by_cases hek : a = k
      · by_cases hb : b = Memory.unlisted <;> simp [Memory.write, Memory.read, hek, hb, hek ▸ h]
      · simp only [Memory.write, if_neg hak, if_neg hek, Memory.read]
        rw [Memory.read_write_ne rest a c b h]

/-- A read of the same address gives the byte written, in a canonical memory. -/
theorem Memory.read_write_self : ∀ (m : Memory) (lo a : Nat) (b : Byte), Memory.wfFrom lo m = true →
    Memory.read (Memory.write m a b) a = b
  | [], _, a, b, _ => by
    by_cases hb : b = Memory.unlisted <;> simp [Memory.write, Memory.read, hb]
  | (k, v) :: rest, lo, a, b, hw => by
    simp only [Memory.wfFrom, Bool.and_eq_true, decide_eq_true_eq] at hw
    by_cases hak : a < k
    · by_cases hb : b = Memory.unlisted
      · have hk : a ≠ k := by omega
        simp only [Memory.write, if_pos hak, if_pos hb, Memory.read, if_neg hk]
        rw [Memory.read_below rest (k + 1) a hw.2 (by omega), hb]
      · simp [Memory.write, Memory.read, hak, hb]
    · by_cases hek : a = k
      · by_cases hb : b = Memory.unlisted
        · simp only [Memory.write, if_neg hak, if_pos hek, if_pos hb]
          rw [Memory.read_below rest (k + 1) a hw.2 (by omega), hb]
        · simp [Memory.write, Memory.read, hek, hb]
      · simp only [Memory.write, if_neg hak, if_neg hek, Memory.read]
        exact Memory.read_write_self rest (k + 1) a b hw.2

/-- What a byte reads as after a write, in a canonical memory. -/
theorem Memory.read_write (m : Memory) (a c : Nat) (b : Byte) (h : Memory.wf m = true) :
    Memory.read (Memory.write m a b) c = if c = a then b else Memory.read m c := by
  by_cases hc : c = a
  · rw [if_pos hc, hc, Memory.read_write_self m 0 a b h]
  · rw [if_neg hc, Memory.read_write_ne m a c b hc]

/-! ## `canon` -/

/-- Whatever cells come in, `canon` answers a canonical memory. -/
theorem Memory.wf_canon (m : Memory) : Memory.wf (Memory.canon m) = true := by
  have key : ∀ (l : List Host.Cell) (acc : Memory), Memory.wf acc = true →
      Memory.wf (l.foldl (fun acc c => Memory.write acc (c.1 % 0x10000) c.2) acc) = true := by
    intro l
    induction l with
    | nil => intro acc h; exact h
    | cons c l ih =>
      intro acc h
      exact ih _ (Memory.wf_write acc _ _ h (Nat.mod_lt _ (by decide)))
  exact key m [] rfl

/-- A write above every cell of a memory goes at its end. -/
theorem Memory.write_above : ∀ (m : Memory) (a : Nat) (b : Byte), (∀ c ∈ m, c.1 < a) → b ≠ Memory.unlisted →
    Memory.write m a b = m ++ [(a, b)]
  | [], a, b, _, hb => by simp [Memory.write, hb]
  | (k, v) :: rest, a, b, h, hb => by
    have hk : k < a := h (k, v) List.mem_cons_self
    have h1 : ¬ a < k := by omega
    have h2 : a ≠ k := by omega
    simp only [Memory.write, if_neg h1, if_neg h2, List.cons_append]
    rw [Memory.write_above rest a b (fun c hc => h c (List.mem_cons_of_mem _ hc)) hb]

/-- `canon` leaves a canonical memory as it is. -/
theorem Memory.canon_of_wf (m : Memory) (h : Memory.wf m = true) : Memory.canon m = m := by
  have key : ∀ (l : List Host.Cell) (lo : Nat) (acc : Memory), Memory.wfFrom lo l = true → (∀ c ∈ acc, c.1 < lo) →
      l.foldl (fun acc c => Memory.write acc (c.1 % 0x10000) c.2) acc = acc ++ l := by
    intro l
    induction l with
    | nil => intro lo acc _ _; simp
    | cons c l ih =>
      intro lo acc hw hacc
      obtain ⟨k, v⟩ := c
      simp only [Memory.wfFrom, Bool.and_eq_true, decide_eq_true_eq] at hw
      obtain ⟨⟨⟨h1, h2⟩, h3⟩, h4⟩ := hw
      have hw1 : Memory.write acc (k % 0x10000) v = acc ++ [(k, v)] := by
        rw [Nat.mod_eq_of_lt h2]
        exact Memory.write_above acc k v (fun c hc => Nat.lt_of_lt_of_le (hacc c hc) h1) h3
      rw [List.foldl_cons, hw1, ih (k + 1) (acc ++ [(k, v)]) h4]
      · simp
      · intro c hc
        rcases List.mem_append.1 hc with hc | hc
        · have := hacc c hc; omega
        · have : c = (k, v) := by simpa using hc
          subst this; exact Nat.lt_succ_self k
  exact (key m 0 [] h (by simp)).trans (List.nil_append m)

/-! ## Bytes and words of the state -/

theorem State.wf_setByte (s : State) (a : Word) (b : Byte) (h : s.Inv) : (s.setByte a b).Inv :=
  Memory.wf_write s.mem a.toNat b h a.isLt

theorem State.wf_setWord (s : State) (a v : Word) (h : s.Inv) : (s.setWord a v).Inv :=
  State.wf_setByte _ _ _ (State.wf_setByte s a _ h)

theorem State.wf_setBytes (bs : List Byte) : ∀ (s : State) (a : Word), s.Inv → (s.setBytes a bs).Inv := by
  induction bs with
  | nil => intro s a h; exact h
  | cons b bs ih => intro s a h; exact ih _ _ (State.wf_setByte s a b h)

theorem State.wf_setReg (s : State) (r : Reg) (v : Word) (h : s.Inv) : (s.setReg r v).Inv := h

/-- What a byte reads as after a byte is written. -/
theorem State.byte_setByte (s : State) (a c : Word) (b : Byte) (h : s.Inv) :
    (s.setByte a b).byte c = if c = a then b else s.byte c := by
  have := Memory.read_write s.mem a.toNat c.toNat b h
  simpa only [State.byte, State.setByte, BitVec.toNat_inj] using this

/-- Other bytes are left alone, whatever the form of memory. -/
theorem State.byte_setByte_ne (s : State) (a c : Word) (b : Byte) (h : c ≠ a) : (s.setByte a b).byte c = s.byte c :=
  Memory.read_write_ne s.mem a.toNat c.toNat b (fun e => h (BitVec.eq_of_toNat_eq e))

theorem word_ne_succ (a : Word) : a ≠ a + 1 := by bv_omega

/-- What a byte reads as after a 2-byte value is stored. -/
theorem State.storesWord_setWord (s : State) (a v : Word) (h : s.Inv) : StoresWord s a v (s.setWord a v) := by
  intro c
  rw [State.setWord, State.byte_setByte _ _ _ _ (State.wf_setByte s a _ h), State.byte_setByte s a c _ h]
  by_cases h1 : c = a
  · subst h1
    rw [if_neg (word_ne_succ c), if_pos rfl, if_pos rfl]; rfl
  · by_cases h2 : c = a + 1
    · rw [if_pos h2, if_neg h1, if_pos h2]; rfl
    · rw [if_neg h2, if_neg h1, if_neg h1, if_neg h2]

/-- A 2-byte value stored at `a` is the word read at `a`. -/
theorem StoresWord.wordAt_eq {s t : State} {a v : Word} (h : StoresWord s a v t) : wordAt t a = v := by
  unfold wordAt
  rw [h a, h (a + 1), if_pos rfl, if_neg (word_ne_succ a).symm, if_pos rfl]
  apply BitVec.eq_of_toNat_eq
  rw [BitVec.toNat_append]
  simp only [BitVec.extractLsb'_toNat]
  rw [Nat.shiftLeft_eq, Nat.shiftRight_eq_div_pow, Nat.shiftRight_eq_div_pow]
  have hv := v.isLt
  have e := Nat.two_pow_add_eq_or_of_lt (i := 8) (b := v.toNat / 2 ^ 0 % 2 ^ 8) (Nat.mod_lt _ (by decide))
    (v.toNat / 2 ^ 8 % 2 ^ 8)
  rw [Nat.mul_comm, ← e]
  omega

end Sys2Proof.Machine
end

