-- ==== Sys2Proof/Laws/Decode.lean ====
section
/-!
SUPPORT. The laws of fields, words and decoding (30_encoding.md R80 to R93).
-/
namespace Sys2Proof

/-! ## Words and fields -/

/-- The fields of the word of some fields are those fields: no bit of an encoding is dropped. -/
theorem RawInstr.ofWord_toWord (f : RawInstr) : RawInstr.ofWord f.toWord = f := by
  obtain ⟨op, d, a, v⟩ := f
  simp only [RawInstr.ofWord, RawInstr.toWord, RawInstr.mk.injEq]
  refine ⟨?_, ?_, ?_, ?_⟩ <;> ext i hi <;> simp [BitVec.getElem_extractLsb'] <;> grind

/-- The word of the fields of a word is that word. -/
theorem RawInstr.toWord_ofWord (w : BitVec 32) : (RawInstr.ofWord w).toWord = w := by
  simp only [RawInstr.ofWord, RawInstr.toWord]
  ext i hi
  simp
  grind

/-- The four bytes of a word make that word again. -/
theorem wordOfBytes_bytes (w : BitVec 32) :
    wordOfBytes (w.extractLsb' 0 8) (w.extractLsb' 8 8) (w.extractLsb' 16 8) (w.extractLsb' 24 8) = w := by
  simp only [wordOfBytes]
  ext i hi
  simp
  grind

theorem RawInstr.ofWord_opcode_toNat (w : BitVec 32) : (RawInstr.ofWord w).opcode.toNat = w.toNat % 256 := by
  simp [RawInstr.ofWord]

theorem RawInstr.ofWord_src_toNat (w : BitVec 32) : (RawInstr.ofWord w).src.toNat = w.toNat / 2 ^ 8 % 16 := by
  simp [RawInstr.ofWord, Nat.shiftRight_eq_div_pow]

theorem RawInstr.ofWord_dst_toNat (w : BitVec 32) : (RawInstr.ofWord w).dst.toNat = w.toNat / 2 ^ 12 % 16 := by
  simp [RawInstr.ofWord, Nat.shiftRight_eq_div_pow]

theorem RawInstr.ofWord_imm_toNat (w : BitVec 32) : (RawInstr.ofWord w).imm.toNat = w.toNat / 2 ^ 16 := by
  have := w.isLt
  simp [RawInstr.ofWord, Nat.shiftRight_eq_div_pow]
  omega

/-! ## Register fields -/

theorem Reg.ofField_toField (r : Reg) : Reg.ofField r.toField = some r := by cases r <;> rfl

theorem Reg.toField_lt (r : Reg) : r.toField.toNat < 8 := by cases r <;> decide

/-- A field names a register exactly when it is below 8 (10_state.md R24). -/
theorem Reg.ofField_isSome (f : BitVec 4) : (Reg.ofField f).isSome = decide (f.toNat < 8) := by
  revert f; decide

theorem thirdReg_zeroExtend (r : Reg) : thirdReg (r.toField.zeroExtend 16) = r := by cases r <;> rfl

theorem thirdReg_toField (v : Word) : (thirdReg v).toField.toNat = v.toNat % 8 := by
  have h : v.toNat % 8 < 8 := Nat.mod_lt _ (by decide)
  unfold thirdReg
  generalize v.toNat % 8 = n at h
  match n, h with
  | 0, _ | 1, _ | 2, _ | 3, _ | 4, _ | 5, _ | 6, _ | 7, _ => rfl

/-- The third register depends on the low 3 bits of `imm` alone (30_encoding.md R81). -/
theorem thirdReg_congr {v v' : Word} (h : v'.toNat % 8 = v.toNat % 8) : thirdReg v' = thirdReg v := by
  simp only [thirdReg, h]

/-! ## Decoding -/

theorem Instr.ofOpcode_isSome (op : BitVec 8) (d a : Reg) (v : Word) :
    (Instr.ofOpcode op d a v).isSome = decide (op.toNat ≤ 0x1E) := by
  unfold Instr.ofOpcode
  generalize op.toNat = n
  rcases Nat.lt_or_ge n 31 with h | h
  · interval_cases n <;> rfl
  · obtain ⟨m, rfl⟩ := Nat.exists_eq_add_of_le h
    rw [decide_eq_false (by omega)]
    split <;> first | rfl | omega

/-- The decoder on the word of some fields whose registers are given. -/
theorem decode_toWord (op : BitVec 8) (d a : Reg) (v : Word) :
    decode (RawInstr.toWord ⟨op, d.toField, a.toField, v⟩) =
      match Instr.ofOpcode op d a v with
      | some i => .ok i
      | none => .error .invalidInstruction := by
  unfold decode
  rw [RawInstr.ofWord_toWord]
  cases h : Instr.ofOpcode op d a v <;> simp only [Instr.ofRaw, Reg.ofField_toField, h]

namespace Machine

/-- The same for `wordOf`, the form the statements use. -/
theorem decode_wordOf (op : BitVec 8) (d a : Reg) (v : Word) :
    decode (wordOf op d a v) =
      match Instr.ofOpcode op d a v with
      | some i => .ok i
      | none => .error .invalidInstruction := decode_toWord op d a v

/-- A word has a bad register field exactly when `dst` or `src` is 8 or more (30_encoding.md R93). -/
theorem badRegister_iff (w : BitVec 32) :
    BadRegister w ↔ 8 ≤ (RawInstr.ofWord w).dst.toNat ∨ 8 ≤ (RawInstr.ofWord w).src.toNat := by
  rw [RawInstr.ofWord_dst_toNat, RawInstr.ofWord_src_toNat]
  simp only [BadRegister, BitVec.getLsbD, Nat.testBit_eq_decide_div_mod_eq, decide_eq_true_eq]
  omega

/-- Everything the decoder can answer, by the checks in their order (40_cycle.md R122, R123). -/
theorem decode_cases (w : BitVec 32) :
    (BadRegister w ∧ decode w = .error .invalidRegister) ∨
    (¬ BadRegister w ∧ w.toNat % 256 > 0x1E ∧ decode w = .error .invalidInstruction) ∨
    (¬ BadRegister w ∧ w.toNat % 256 ≤ 0x1E ∧ ∃ d a i, Reg.ofField (RawInstr.ofWord w).dst = some d ∧
      Reg.ofField (RawInstr.ofWord w).src = some a ∧
      Instr.ofOpcode (RawInstr.ofWord w).opcode d a (RawInstr.ofWord w).imm = some i ∧ decode w = .ok i) := by
  have hd := Reg.ofField_isSome (RawInstr.ofWord w).dst
  have ha := Reg.ofField_isSome (RawInstr.ofWord w).src
  rw [badRegister_iff, ← RawInstr.ofWord_opcode_toNat]
  unfold decode Instr.ofRaw
  cases hd' : Reg.ofField (RawInstr.ofWord w).dst with
  | none =>
    rw [hd', Option.isSome_none, eq_comm, decide_eq_false_iff_not] at hd
    exact .inl ⟨.inl (by omega), rfl⟩
  | some d =>
    rw [hd', Option.isSome_some, eq_comm, decide_eq_true_eq] at hd
    cases ha' : Reg.ofField (RawInstr.ofWord w).src with
    | none =>
      rw [ha', Option.isSome_none, eq_comm, decide_eq_false_iff_not] at ha
      exact .inl ⟨.inr (by omega), rfl⟩
    | some a =>
      rw [ha', Option.isSome_some, eq_comm, decide_eq_true_eq] at ha
      have hn : ¬ (8 ≤ (RawInstr.ofWord w).dst.toNat ∨ 8 ≤ (RawInstr.ofWord w).src.toNat) := by omega
      have ho := Instr.ofOpcode_isSome (RawInstr.ofWord w).opcode d a (RawInstr.ofWord w).imm
      cases ho' : Instr.ofOpcode (RawInstr.ofWord w).opcode d a (RawInstr.ofWord w).imm with
      | none =>
        rw [ho', Option.isSome_none, eq_comm, decide_eq_false_iff_not] at ho
        exact .inr (.inl ⟨hn, by omega, by simp only [ho']⟩)
      | some i =>
        rw [ho', Option.isSome_some, eq_comm, decide_eq_true_eq] at ho
        exact .inr (.inr ⟨hn, ho, d, a, i, rfl, rfl, ho', by simp only [ho']⟩)

end Machine

end Sys2Proof
end

