-- ==== Sys2Proof/Laws/Exec.lean ====
section
/-!
SUPPORT. One lemma per shared operation that says everything it can do; the provers cite these instead of unfolding the
operations.
-/
namespace Sys2Proof.Machine

/-! ## The ends of an instruction -/

/-- An instruction that writes one register and ends: it completes, and `WritesReg` says the rest. -/
theorem finish_setReg (s : State) (d : Reg) (v : Word) :
    ∃ t, finish (s.setReg d v) = .next t ∧ WritesReg s d v t := by
  refine ⟨_, rfl, fun q => ?_, fun _ => rfl, rfl, rfl, rfl, rfl, rfl, rfl⟩
  rw [State.reg_advance]
  by_cases hq : q = .ip
  · rw [if_pos hq, if_pos hq, State.reg_setReg]
    by_cases hd : d = .ip
    · rw [if_pos hd, if_pos hd.symm]
    · rw [if_neg hd, if_neg (Ne.symm hd)]
  · rw [if_neg hq, if_neg hq, State.reg_setReg]

/-- An instruction that only moves `IP`. -/
theorem finish_movesTo (s : State) : ∃ t, finish s = .next t ∧ MovesTo s (s.reg .ip + 4) t :=
  ⟨_, rfl, fun q => State.reg_advance s q, fun _ => rfl, rfl, rfl, rfl, rfl, rfl, rfl⟩

/-- A branch completes, taken or not (43_control.md R199). -/
theorem branchIf_next (c : Bool) (v : Word) (s : State) : ∃ t, branchIf c v s = .next t ∧
    (c = true → MovesTo s (s.reg .ip + v + 4) t) ∧ (c = false → MovesTo s (s.reg .ip + 4) t) := by
  cases c with
  | false =>
    obtain ⟨t, ht, hm⟩ := finish_movesTo s
    exact ⟨t, ht, fun h => absurd h (by decide), fun _ => hm⟩
  | true =>
    obtain ⟨t, ht, hr, hmem, hc⟩ := finish_setReg s .ip (s.reg .ip + v)
    refine ⟨t, ht, fun _ => ⟨fun q => ?_, hmem, hc⟩, fun h => absurd h (by decide)⟩
    rw [hr q]
    by_cases hq : q = .ip
    · rw [if_pos hq, if_pos hq, if_pos rfl]
    · rw [if_neg hq, if_neg hq, if_neg hq]

/-! ## Data accesses (20_memory.md R55) -/

theorem topFault_iff (s : State) (a : Word) : s.topFault a = true ↔ TopFaults s a := by
  simp [State.topFault, TopFaults]

theorem loadWord_ok {s : State} {a : Word} (h : ¬ TopFaults s a) : loadWord s a = .ok (wordAt s a) := by
  rw [loadWord, if_neg (fun e => h ((topFault_iff s a).1 e))]; rfl

theorem loadWord_fault {s : State} {a : Word} (h : TopFaults s a) : loadWord s a = .error .outOfBounds := by
  rw [loadWord, if_pos ((topFault_iff s a).2 h)]

theorem storeWord_ok {s : State} {a v : Word} (h : ¬ TopFaults s a) : storeWord s a v = .ok (s.setWord a v) := by
  rw [storeWord, if_neg (fun e => h ((topFault_iff s a).1 e))]

theorem storeWord_fault {s : State} {a v : Word} (h : TopFaults s a) : storeWord s a v = .error .outOfBounds := by
  rw [storeWord, if_pos ((topFault_iff s a).2 h)]

theorem pushWord_ok {s : State} {v : Word} (h : ¬ TopFaults s (s.reg .sp - 2)) :
    pushWord s v = .ok ((s.setWord (s.reg .sp - 2) v).setReg .sp (s.reg .sp - 2)) := by
  rw [pushWord, storeWord_ok h]

theorem pushWord_fault {s : State} {v : Word} (h : TopFaults s (s.reg .sp - 2)) :
    pushWord s v = .error .outOfBounds := by
  rw [pushWord, storeWord_fault h]

/-! ## Host writes -/

/-- What a byte reads as after bytes are written from an address that leaves room for them. -/
theorem State.byte_setBytes (bs : List Byte) : ∀ (s : State) (b a : Word), s.Inv → b.toNat + bs.length ≤ 0x10000 →
    (s.setBytes b bs).byte a = covered b bs a (s.byte a) := by
  induction bs with
  | nil => intro s b a _ _; simp [State.setBytes, covered]
  | cons x bs ih =>
    intro s b a h hb
    rw [List.length_cons] at hb
    have ha := a.isLt
    cases bs with
    | nil =>
      rw [State.setBytes, State.setBytes, State.byte_setByte s b a x h, covered]
      by_cases hab : a = b
      · subst hab; simp
      · rw [if_neg hab]
        have : a.toNat ≠ b.toNat := fun e => hab (BitVec.eq_of_toNat_eq e)
        by_cases hle : b.toNat ≤ a.toNat
        · rw [if_pos hle, List.getElem?_eq_none (by simp only [List.length_cons, List.length_nil]; omega)]; rfl
        · rw [if_neg hle]
    | cons y ys =>
      have hb1 : (b + 1).toNat = b.toNat + 1 := by
        rw [List.length_cons] at hb
        bv_omega
      rw [State.setBytes, ih (s.setByte b x) (b + 1) a (State.wf_setByte s b x h) (by omega), State.byte_setByte s b a x h]
      simp only [covered, hb1]
      by_cases hab : a = b
      · subst hab; simp
      · have hne : a.toNat ≠ b.toNat := fun e => hab (BitVec.eq_of_toNat_eq e)
        rw [if_neg hab]
        by_cases hle : b.toNat ≤ a.toNat
        · rw [if_pos hle, if_pos (by omega)]
          obtain ⟨k, hk⟩ : ∃ k, a.toNat - b.toNat = k + 1 := ⟨a.toNat - b.toNat - 1, by omega⟩
          rw [hk, show a.toNat - (b.toNat + 1) = k by omega, List.getElem?_cons_succ]
        · rw [if_neg hle, if_neg (by omega)]

end Sys2Proof.Machine
end

