-- ==== Sys2Proof/Laws/PerInstr.lean ====
section
/-!
SUPPORT. One lemma per instruction: its encoding's fields read back as they were written, and they pass the three
checks of well-formedness (30_encoding.md R87, R93).
-/
namespace Sys2Proof.Laws.LegalFields

/-- The word of the instruction has the fields the encoder gave it, and they are those of a legal word. -/
def Statement (i : Instr) : Prop := RawInstr.ofWord (encode i) = i.toRaw ∧ i.toRaw.wellFormed = true

theorem nop : Statement .nop :=
  ⟨RawInstr.ofWord_toWord _, rfl⟩

theorem neg (d a : Reg) : Statement (.neg d a) :=
  ⟨RawInstr.ofWord_toWord _, by cases d <;> cases a <;> rfl⟩

theorem addr (d a b : Reg) : Statement (.addr d a b) :=
  ⟨RawInstr.ofWord_toWord _, by cases d <;> cases a <;> rfl⟩

theorem addi (d a : Reg) (v : Word) : Statement (.addi d a v) :=
  ⟨RawInstr.ofWord_toWord _, by cases d <;> cases a <;> rfl⟩

theorem mulr (d a b : Reg) : Statement (.mulr d a b) :=
  ⟨RawInstr.ofWord_toWord _, by cases d <;> cases a <;> rfl⟩

theorem muli (d a : Reg) (v : Word) : Statement (.muli d a v) :=
  ⟨RawInstr.ofWord_toWord _, by cases d <;> cases a <;> rfl⟩

theorem andr (d a b : Reg) : Statement (.andr d a b) :=
  ⟨RawInstr.ofWord_toWord _, by cases d <;> cases a <;> rfl⟩

theorem andi (d a : Reg) (v : Word) : Statement (.andi d a v) :=
  ⟨RawInstr.ofWord_toWord _, by cases d <;> cases a <;> rfl⟩

theorem orr (d a b : Reg) : Statement (.orr d a b) :=
  ⟨RawInstr.ofWord_toWord _, by cases d <;> cases a <;> rfl⟩

theorem ori (d a : Reg) (v : Word) : Statement (.ori d a v) :=
  ⟨RawInstr.ofWord_toWord _, by cases d <;> cases a <;> rfl⟩

theorem xorr (d a b : Reg) : Statement (.xorr d a b) :=
  ⟨RawInstr.ofWord_toWord _, by cases d <;> cases a <;> rfl⟩

theorem xori (d a : Reg) (v : Word) : Statement (.xori d a v) :=
  ⟨RawInstr.ofWord_toWord _, by cases d <;> cases a <;> rfl⟩

theorem shrr (d a b : Reg) : Statement (.shrr d a b) :=
  ⟨RawInstr.ofWord_toWord _, by cases d <;> cases a <;> rfl⟩

theorem shri (d a : Reg) (v : Word) : Statement (.shri d a v) :=
  ⟨RawInstr.ofWord_toWord _, by cases d <;> cases a <;> rfl⟩

theorem not (d a : Reg) : Statement (.not d a) :=
  ⟨RawInstr.ofWord_toWord _, by cases d <;> cases a <;> rfl⟩

theorem ld (d a : Reg) (v : Word) : Statement (.ld d a v) :=
  ⟨RawInstr.ofWord_toWord _, by cases d <;> cases a <;> rfl⟩

theorem st (d a : Reg) (v : Word) : Statement (.st d a v) :=
  ⟨RawInstr.ofWord_toWord _, by cases d <;> cases a <;> rfl⟩

theorem hlt : Statement .hlt :=
  ⟨RawInstr.ofWord_toWord _, rfl⟩

theorem movr (d a : Reg) : Statement (.movr d a) :=
  ⟨RawInstr.ofWord_toWord _, by cases d <;> cases a <;> rfl⟩

theorem movi (d : Reg) (v : Word) : Statement (.movi d v) :=
  ⟨RawInstr.ofWord_toWord _, by cases d <;> rfl⟩

theorem jei (d a : Reg) (v : Word) : Statement (.jei d a v) :=
  ⟨RawInstr.ofWord_toWord _, by cases d <;> cases a <;> rfl⟩

theorem jni (d a : Reg) (v : Word) : Statement (.jni d a v) :=
  ⟨RawInstr.ofWord_toWord _, by cases d <;> cases a <;> rfl⟩

theorem jgi (d a : Reg) (v : Word) : Statement (.jgi d a v) :=
  ⟨RawInstr.ofWord_toWord _, by cases d <;> cases a <;> rfl⟩

theorem jzi (d : Reg) (v : Word) : Statement (.jzi d v) :=
  ⟨RawInstr.ofWord_toWord _, by cases d <;> rfl⟩

theorem call (v : Word) : Statement (.call v) :=
  ⟨RawInstr.ofWord_toWord _, rfl⟩

theorem ret : Statement .ret :=
  ⟨RawInstr.ofWord_toWord _, rfl⟩

theorem pop (d : Reg) : Statement (.pop d) :=
  ⟨RawInstr.ofWord_toWord _, by cases d <;> rfl⟩

theorem push (d : Reg) : Statement (.push d) :=
  ⟨RawInstr.ofWord_toWord _, by cases d <;> rfl⟩

theorem pusi (v : Word) : Statement (.pusi v) :=
  ⟨RawInstr.ofWord_toWord _, rfl⟩

theorem sys : Statement .sys :=
  ⟨RawInstr.ofWord_toWord _, rfl⟩

theorem rand : Statement .rand :=
  ⟨RawInstr.ofWord_toWord _, rfl⟩

end Sys2Proof.Laws.LegalFields
end

