-- ==== Sys2Proof/Laws/Step.lean ====
section
/-!
SUPPORT. What the fetch and the call of a handler can do, said once (40_cycle.md R120 to R125, 45_system.md R256).
-/
namespace Sys2Proof.Machine

/-- Everything the fetch and the checks can answer, in their order. -/
theorem fetchDecode_cases (s : State) :
    ((s.reg .ip).toNat > 0xFFFC ∧ fetchDecode s = .error .outOfBounds) ∨
    ((s.reg .ip).toNat ≤ 0xFFFC ∧ ∃ r, decode (wordAtIp s) = .error r ∧
      fetchDecode s = .error (Fault.ofReject r)) ∨
    ((s.reg .ip).toNat ≤ 0xFFFC ∧ ∃ i, decode (wordAtIp s) = .ok i ∧ fetchDecode s = .ok i) := by
  have hw : s.fetchWord = wordAtIp s := rfl
  unfold fetchDecode
  by_cases h : (s.reg .ip).toNat > 0xFFFC
  · exact .inl ⟨h, if_pos h⟩
  · rw [if_neg h, hw]
    cases hd : decode (wordAtIp s) with
    | error r => exact .inr (.inl ⟨by omega, r, rfl, rfl⟩)
    | ok i => exact .inr (.inr ⟨by omega, i, rfl, rfl⟩)

/-- A step whose fetch and checks pass is the instruction's effect. -/
theorem step_of_fetchDecode {s : State} {i : Instr} (h : fetchDecode s = .ok i) : step s = exec i s := by
  rw [step, h]

/-- The fetch reads registers and memory only. -/
theorem fetchDecode_congr {s t : State} (hr : t.regs = s.regs) (hm : t.mem = s.mem) :
    fetchDecode t = fetchDecode s := by
  cases s; cases t; subst hr; subst hm; rfl

/-- The default handler changes no part of the context (45_system.md R253). -/
theorem defaultHandler_frame (s : State) :
    (defaultHandler s).1.regs = s.regs ∧ (defaultHandler s).1.mem = s.mem ∧ (defaultHandler s).1.prng = s.prng ∧
    (defaultHandler s).1.life = s.life ∧ (defaultHandler s).1.sys = s.sys ∧
    (defaultHandler s).1.halted = s.halted ∧ (defaultHandler s).1.cfg = s.cfg := by
  unfold defaultHandler
  split
  · exact ⟨rfl, rfl, rfl, rfl, rfl, rfl, rfl⟩
  · split <;> exact ⟨rfl, rfl, rfl, rfl, rfl, rfl, rfl⟩

/-- What calling any handler leaves unchanged. -/
theorem callHandler_frame (s : State) :
    (callHandler s).1.life = s.life ∧ (callHandler s).1.sys = s.sys ∧ (callHandler s).1.halted = s.halted ∧
    (callHandler s).1.cfg = s.cfg := by
  unfold callHandler
  split
  · obtain ⟨-, -, -, h1, h2, h3, h4⟩ := defaultHandler_frame s
    exact ⟨h1, h2, h3, h4⟩
  · exact ⟨rfl, rfl, rfl, rfl⟩

/-- Calling any handler leaves memory in its canonical form. -/
theorem callHandler_inv (s : State) (h : s.Inv) : (callHandler s).1.Inv := by
  unfold callHandler
  split
  · obtain ⟨-, h1, -⟩ := defaultHandler_frame s
    unfold State.Inv; rw [h1]; exact h
  · exact Memory.wf_canon _

end Sys2Proof.Machine
end

