-- ==== Sys2Proof/Tests/Slice0.lean ====
section
/-!
SUPPORT. Tests. Expected results come from spec/95_test_vectors.md (the vector's name stands with each test) or are
worked out by hand from the rule named. Witness theorems show that the hypotheses of the statements can be met, each
clause at a boundary of its range.
-/
namespace Sys2Proof.Tests
open Sys2Proof.Machine

/-! ## Helpers -/

/-- A state with every value known: the spec's own values after create, the parameters as given. -/
def base (cfg : Config) : State :=
  State.create { ResetDraws.named with seed := 0x0123456789ABCDEF } cfg

/-- A state with this code at `ip`, these registers and these further cells. -/
def machine (cfg : Config) (ip : Word) (code : List Byte) (regs : List (Reg × Word)) (cells : List (Word × Byte)) :
    State :=
  cells.foldl (fun s c => s.setByte c.1 c.2)
    ((regs.foldl (fun s r => s.setReg r.1 r.2) ((base cfg).setReg .ip ip)).setBytes ip code)

/-- Like `machine`, under the spec's default parameters. -/
def start (ip : Word) (code : List Byte) (regs : List (Reg × Word)) (cells : List (Word × Byte)) : State :=
  machine Config.specDefaults ip code regs cells

/-- One step goes to a next state in which exactly these registers and cells have changed. -/
def runs (s : State) (regs : List (Reg × Word)) (cells : List (Word × Byte)) : Bool :=
  match step s with
  | .next t =>
    decide (t.regs = regs.foldl (fun x r => x.set r.1 r.2) s.regs)
      && decide (t.mem = cells.foldl (fun m c => Memory.write m c.1.toNat c.2) s.mem)
  | _ => false

/-- One step ends in this fault. -/
def faults (s : State) (f : Fault) : Bool :=
  match step s with
  | .fault g => decide (g = f)
  | _ => false

/-- The parameters with `NotOp = logical`. -/
def logicalNot : Config := { Config.specDefaults with notOp := .logical }

/-- The parameters with `PushSpValue = old`. -/
def pushOld : Config := { Config.specDefaults with pushSpValue := .old }

/-- The parameters with `PopSpResult = loaded`. -/
def popLoaded : Config := { Config.specDefaults with popSpResult := .loaded }

/-- The parameters with `TopWordAccess = fault`. -/
def topFaulting : Config := { Config.specDefaults with topWordAccess := .fault }

/-- A word from the fields of its encoding: `imm`, `dst`, `src`, opcode (30_encoding.md R80). -/
def fields (imm : BitVec 16) (dst src : BitVec 4) (opcode : BitVec 8) : BitVec 32 := imm ++ dst ++ src ++ opcode

/-- The decoder reads this instruction from the word. -/
def reads (w : BitVec 32) (i : Instr) : Bool :=
  match decode w with
  | .ok j => decide (j = i)
  | .error _ => false

/-- The reason of a failed operation. -/
def failure {α : Type} (r : Except StopReason α) : Option StopReason :=
  match r with
  | .ok _ => none
  | .error e => some e

/-! ## Well-formedness: one term that passes, one that fails each check (30_encoding.md R93) -/

theorem test_wellFormed : (RawInstr.mk 0x1E 7 7 0xFFFF).wellFormed = true := by decide

theorem test_illFormed_dst : (RawInstr.mk 0x00 8 0 0).dstValid = false ∧ (RawInstr.mk 0x00 8 0 0).wellFormed = false := by
  decide

theorem test_illFormed_src : (RawInstr.mk 0x00 0 15 0).srcValid = false ∧ (RawInstr.mk 0x00 0 15 0).wellFormed = false := by
  decide

theorem test_illFormed_opcode :
    (RawInstr.mk 0x1F 0 0 0).opcodeKnown = false ∧ (RawInstr.mk 0x1F 0 0 0).wellFormed = false := by decide

/-! ## Decoding: every opcode from its bits (30_encoding.md R80, R81, R91) -/

theorem test_decode_system :
    reads (fields 0b0000000000000000 0b0000 0b0000 0b00000000) .nop = true ∧
    reads (fields 0b0000000000000000 0b0000 0b0000 0b00010001) .hlt = true ∧
    reads (fields 0b0000000000000000 0b0000 0b0000 0b00011101) .sys = true ∧
    reads (fields 0b0000000000000000 0b0000 0b0000 0b00011110) .rand = true := by decide

theorem test_decode_alu_registers :
    reads (fields 0b0000000000000000 0b0001 0b0010 0b00000001) (.neg .r1 .r2) = true ∧
    reads (fields 0b0000000000000011 0b0001 0b0010 0b00000010) (.addr .r1 .r2 .r3) = true ∧
    reads (fields 0b0000000000000100 0b0010 0b0011 0b00000100) (.mulr .r2 .r3 .r4) = true ∧
    reads (fields 0b0000000000000101 0b0011 0b0100 0b00000110) (.andr .r3 .r4 .r5) = true ∧
    reads (fields 0b0000000000000110 0b0100 0b0101 0b00001000) (.orr .r4 .r5 .sp) = true ∧
    reads (fields 0b0000000000000111 0b0101 0b0110 0b00001010) (.xorr .r5 .sp .ip) = true ∧
    reads (fields 0b1111111111111000 0b0110 0b0111 0b00001100) (.shrr .sp .ip .ra) = true ∧
    reads (fields 0b0000000000000000 0b0111 0b0000 0b00001110) (.not .ip .ra) = true := by decide

theorem test_decode_alu_immediates :
    reads (fields 0b1111111111111111 0b0001 0b0010 0b00000011) (.addi .r1 .r2 0xFFFF) = true ∧
    reads (fields 0b0101010101010110 0b0001 0b0010 0b00000101) (.muli .r1 .r2 0x5556) = true ∧
    reads (fields 0b0000000011111111 0b0001 0b0010 0b00000111) (.andi .r1 .r2 0x00FF) = true ∧
    reads (fields 0b0000000000110100 0b0001 0b0010 0b00001001) (.ori .r1 .r2 0x0034) = true ∧
    reads (fields 0b1000000000000001 0b0001 0b0010 0b00001011) (.xori .r1 .r2 0x8001) = true ∧
    reads (fields 0b0000000000001001 0b0001 0b0010 0b00001101) (.shri .r1 .r2 9) = true := by decide

theorem test_decode_move_memory :
    reads (fields 0b0000000000000010 0b0001 0b0010 0b00001111) (.ld .r1 .r2 0x0002) = true ∧
    reads (fields 0b1111111111111110 0b0001 0b0010 0b00010000) (.st .r1 .r2 0xFFFE) = true ∧
    reads (fields 0b0000000000000000 0b0001 0b0111 0b00010010) (.movr .r1 .ip) = true ∧
    reads (fields 0b0001001000110100 0b0001 0b0000 0b00010011) (.movi .r1 0x1234) = true := by decide

theorem test_decode_control :
    reads (fields 0b0000000000001000 0b0001 0b0010 0b00010100) (.jei .r1 .r2 0x0008) = true ∧
    reads (fields 0b1111111111110000 0b0001 0b0010 0b00010101) (.jni .r1 .r2 0xFFF0) = true ∧
    reads (fields 0b0000000000001100 0b0001 0b0010 0b00010110) (.jgi .r1 .r2 0x000C) = true ∧
    reads (fields 0b1111111111111000 0b0011 0b0000 0b00010111) (.jzi .r3 0xFFF8) = true ∧
    reads (fields 0b0000111111111100 0b0000 0b0000 0b00011000) (.call 0x0FFC) = true ∧
    reads (fields 0b0000000000000000 0b0000 0b0000 0b00011001) .ret = true := by decide

theorem test_decode_stack :
    reads (fields 0b0000000000000000 0b0110 0b0000 0b00011010) (.pop .sp) = true ∧
    reads (fields 0b0000000000000000 0b0111 0b0000 0b00011011) (.push .ip) = true ∧
    reads (fields 0b1010101111001101 0b0000 0b0000 0b00011100) (.pusi 0xABCD) = true := by decide

/-- Bytes in memory order (R80): `02 12 09 00` is ADDR R1, R2, R1 (V-A6), and encoding ADDI IP, IP, 4 gives `03 77 04 00`
(V-D2). -/
theorem test_bytes_in_order :
    reads (wordOfBytes 0x02 0x12 0x09 0x00) (.addr .r1 .r2 .r1) = true ∧
    bytesOfWord (encode (.addi .ip .ip 4)) = [0x03, 0x77, 0x04, 0x00] := by decide

/-- The table's numbering: bit 0 is the low bit of the first byte, and bits at or above `nbits` are zero. -/
theorem test_table_words :
    decodeTableWord 32 0x0004170F = some (.ld .r1 .ip 4) ∧ decodeTableWord 8 0xFFFFFF11 = some .hlt ∧
    decodeTableWord 32 0x0000801E = none := by decide

/-! ## The checks of a step (V-C1 to V-C9, V-E8, V-M20) -/

theorem test_reject_words :
    faults (start 0x4000 [0x00, 0x80, 0, 0] [] []) .invalidRegister = true ∧
    faults (start 0x4000 [0x00, 0x08, 0, 0] [] []) .invalidRegister = true ∧
    faults (start 0x4000 [0x1F, 0x00, 0, 0] [] []) .invalidInstruction = true ∧
    faults (start 0x4000 [0xFF, 0x88, 0, 0] [] []) .invalidRegister = true ∧
    faults (start 0x4000 [0x13, 0x19, 0x34, 0x12] [] []) .invalidRegister = true := by decide

theorem test_fetch_bound :
    runs (start 0xFFFC [0, 0, 0, 0] [] []) [(.ip, 0x0000)] [] = true ∧
    faults (start 0xFFFD [0, 0, 0] [] []) .outOfBounds = true ∧
    faults (start 0xFFFF [0] [] []) .outOfBounds = true := by decide

/-- The host's way in: `withFetchWord` at reset, and where `IP` is past the last fetch address. -/
theorem test_withFetchWord :
    runs (State.reset.withFetchWord 32 0x12341013) [(.r1, 0x1234), (.ip, 4)] [] = true ∧
    runs ((State.reset.setReg .ip 0xFFFE).withFetchWord 32 0x12341013) [(.r1, 0x1234), (.ip, 4)] [] = true := by decide

/-! ## Arithmetic, logic and shifts (2.2) -/

/-- V-A1, V-A3. -/
theorem test_neg :
    runs (start 0x4000 [0x01, 0x12, 0, 0] [(.r2, 0x0001)] []) [(.r1, 0xFFFF), (.ip, 0x4004)] [] = true ∧
    runs (start 0x4000 [0x01, 0x12, 0, 0] [(.r2, 0x8000)] []) [(.r1, 0x8000), (.ip, 0x4004)] [] = true := by decide

/-- V-A4, V-A6, V-A7. -/
theorem test_addr :
    runs (start 0x4000 [0x02, 0x12, 3, 0] [(.r2, 0xFFFF), (.r3, 1)] []) [(.r1, 0), (.ip, 0x4004)] [] = true ∧
    runs (start 0x4000 [0x02, 0x12, 9, 0] [(.r1, 0x10), (.r2, 1)] []) [(.r1, 0x11), (.ip, 0x4004)] [] = true ∧
    runs (start 0x4000 [0x02, 0x11, 1, 0] [(.r1, 0x4000)] []) [(.r1, 0x8000), (.ip, 0x4004)] [] = true := by decide

/-- V-A8, V-A10, V-A11. -/
theorem test_addi :
    runs (start 0x4000 [0x03, 0x12, 0xFF, 0xFF] [(.r2, 0)] []) [(.r1, 0xFFFF), (.ip, 0x4004)] [] = true ∧
    runs (start 0x4000 [0x03, 0x77, 0xFC, 0xFF] [] []) [(.ip, 0x4000)] [] = true ∧
    runs (start 0x4000 [0x03, 0x17, 0, 0] [] []) [(.r1, 0x4000), (.ip, 0x4004)] [] = true := by decide

/-- V-A12, V-A14. -/
theorem test_mulr :
    runs (start 0x4000 [0x04, 0x12, 3, 0] [(.r2, 0xFFFF), (.r3, 0xFFFF)] []) [(.r1, 1), (.ip, 0x4004)] [] = true ∧
    runs (start 0x4000 [0x04, 0x12, 3, 0] [(.r2, 0x1234), (.r3, 0x10)] []) [(.r1, 0x2340), (.ip, 0x4004)] [] = true := by
  decide

/-- V-A15. -/
theorem test_muli :
    runs (start 0x4000 [0x05, 0x12, 0x56, 0x55] [(.r2, 3)] []) [(.r1, 2), (.ip, 0x4004)] [] = true := by decide

/-- V-A17, V-A18. -/
theorem test_and :
    runs (start 0x4000 [0x06, 0x12, 3, 0] [(.r2, 0xF0F0), (.r3, 0x3C3C)] []) [(.r1, 0x3030), (.ip, 0x4004)] [] = true ∧
    runs (start 0x4000 [0x07, 0x12, 0xFF, 0] [(.r2, 0x1234)] []) [(.r1, 0x0034), (.ip, 0x4004)] [] = true := by decide

/-- V-A20, V-A21. -/
theorem test_or :
    runs (start 0x4000 [0x08, 0x12, 3, 0] [(.r2, 0xF000), (.r3, 0x000F)] []) [(.r1, 0xF00F), (.ip, 0x4004)] [] = true ∧
    runs (start 0x4000 [0x09, 0x12, 0x34, 0] [(.r2, 0x1200)] []) [(.r1, 0x1234), (.ip, 0x4004)] [] = true := by decide

/-- V-A22, V-A24. -/
theorem test_xor :
    runs (start 0x4000 [0x0A, 0x12, 3, 0] [(.r2, 0xFFFF), (.r3, 0x1234)] []) [(.r1, 0xEDCB), (.ip, 0x4004)] [] = true ∧
    runs (start 0x4000 [0x0B, 0x12, 0xFF, 0xFF] [(.r2, 0x1234)] []) [(.r1, 0xEDCB), (.ip, 0x4004)] [] = true := by decide

/-- V-A27, V-A28, V-A29. -/
theorem test_shrr :
    runs (start 0x4000 [0x0C, 0x12, 3, 0] [(.r2, 0x1234), (.r3, 8)] []) [(.r1, 0x1234), (.ip, 0x4004)] [] = true ∧
    runs (start 0x4000 [0x0C, 0x12, 3, 0] [(.r2, 0x1234), (.r3, 0xFFF2)] []) [(.r1, 0x048D), (.ip, 0x4004)] [] = true ∧
    runs (start 0x4000 [0x0C, 0x22, 2, 0] [(.r2, 0x000B)] []) [(.r2, 0x0058), (.ip, 0x4004)] [] = true := by decide

/-- V-A30, V-A31 (the source's E3), V-A33. -/
theorem test_shri :
    runs (start 0x4000 [0x0D, 0x12, 9, 0] [(.r2, 0x8001)] []) [(.r1, 0x0002), (.ip, 0x4004)] [] = true ∧
    runs (start 0x4000 [0x0D, 0x12, 1, 0] [(.r2, 0x8001)] []) [(.r1, 0x4000), (.ip, 0x4004)] [] = true ∧
    runs (start 0x4000 [0x0D, 0x12, 7, 0] [(.r2, 0x8000)] []) [(.r1, 0x0100), (.ip, 0x4004)] [] = true := by decide

/-- V-A36, V-A37. -/
theorem test_not_bitwise :
    runs (start 0x4000 [0x0E, 0x12, 0, 0] [(.r2, 0x0F0F)] []) [(.r1, 0xF0F0), (.ip, 0x4004)] [] = true ∧
    runs (start 0x4000 [0x0E, 0x12, 0, 0] [(.r2, 0)] []) [(.r1, 0xFFFF), (.ip, 0x4004)] [] = true := by decide

/-- V-A38, V-A39. -/
theorem test_not_logical :
    runs (machine logicalNot 0x4000 [0x0E, 0x12, 0, 0] [(.r2, 0)] []) [(.r1, 1), (.ip, 0x4004)] [] = true ∧
    runs (machine logicalNot 0x4000 [0x0E, 0x12, 0, 0] [(.r1, 5), (.r2, 0x0F0F)] []) [(.r1, 0), (.ip, 0x4004)] [] = true := by
  decide

/-! ## Loads, stores and moves (2.3) -/

/-- V-M2, V-M5, V-M8. -/
theorem test_ld :
    runs (start 0x4000 [0x0F, 0x22, 0, 0] [(.r2, 0x5000)] [(0x5000, 0xCD), (0x5001, 0xAB)])
      [(.r2, 0xABCD), (.ip, 0x4004)] [] = true ∧
    runs (start 0x4000 [0x0F, 0x12, 0, 0] [(.r2, 0xFFFF)] [(0x0000, 0x22), (0xFFFF, 0x11)])
      [(.r1, 0x2211), (.ip, 0x4004)] [] = true ∧
    runs (start 0x4000 [0x0F, 0x72, 0, 0] [(.r2, 0x5000)] [(0x5001, 0x60)]) [(.ip, 0x6004)] [] = true := by decide

/-- V-M9, V-M12, V-M14. -/
theorem test_st :
    runs (start 0x4000 [0x10, 0x12, 0, 0] [(.r1, 0xBEEF), (.r2, 0x5000)] [])
      [(.ip, 0x4004)] [(0x5000, 0xEF), (0x5001, 0xBE)] = true ∧
    runs (start 0x4000 [0x10, 0x12, 0, 0] [(.r1, 0xA1B2), (.r2, 0xFFFF)] [])
      [(.ip, 0x4004)] [(0x0000, 0xA1), (0xFFFF, 0xB2)] = true ∧
    runs (start 0x4000 [0x10, 0x12, 4, 0] [(.r1, 0x0011), (.r2, 0x4000)] [(0x4005, 0x77)])
      [(.ip, 0x4004)] [(0x4004, 0x11), (0x4005, 0x00)] = true := by decide

/-- V-M6, V-M13: `TopWordAccess = fault`. -/
theorem test_top_word_fault :
    faults (machine topFaulting 0x4000 [0x0F, 0x12, 0, 0] [(.r2, 0xFFFF)] []) .outOfBounds = true ∧
    faults (machine topFaulting 0x4000 [0x10, 0x12, 0, 0] [(.r1, 0xA1B2), (.r2, 0xFFFF)] []) .outOfBounds = true := by
  decide

/-- V-M16, V-M17. -/
theorem test_movr :
    runs (start 0x4000 [0x12, 0x71, 0, 0] [(.r1, 0x6000)] []) [(.ip, 0x6004)] [] = true ∧
    runs (start 0x4000 [0x12, 0x17, 0, 0] [] []) [(.r1, 0x4000), (.ip, 0x4004)] [] = true := by decide

/-- V-M18, V-C8. -/
theorem test_movi :
    runs (start 0x4000 [0x13, 0x10, 0x34, 0x12] [] []) [(.r1, 0x1234), (.ip, 0x4004)] [] = true ∧
    runs (start 0x4000 [0x13, 0x70, 0x00, 0x50] [] []) [(.ip, 0x5004)] [] = true := by decide

/-! ## Branches, call and return (2.4) -/

/-- V-J1, V-J2. -/
theorem test_jei :
    runs (start 0x4000 [0x14, 0x12, 8, 0] [(.r1, 5), (.r2, 5)] []) [(.ip, 0x400C)] [] = true ∧
    runs (start 0x4000 [0x14, 0x12, 8, 0] [(.r1, 5), (.r2, 6)] []) [(.ip, 0x4004)] [] = true := by decide

/-- V-J4 (the source's E1), V-J5. -/
theorem test_jni :
    runs (start 0x4040 [0x15, 0x12, 0xF0, 0xFF] [(.r1, 1), (.r2, 2)] []) [(.ip, 0x4034)] [] = true ∧
    runs (start 0x4040 [0x15, 0x12, 0xF0, 0xFF] [(.r1, 2), (.r2, 2)] []) [(.ip, 0x4044)] [] = true := by decide

/-- V-J6, V-J7, V-J8. -/
theorem test_jgi :
    runs (start 0x4000 [0x16, 0x12, 12, 0] [(.r1, 0x8000), (.r2, 0x7FFF)] []) [(.ip, 0x4010)] [] = true ∧
    runs (start 0x4000 [0x16, 0x12, 12, 0] [(.r1, 0x7FFF), (.r2, 0x8000)] []) [(.ip, 0x4004)] [] = true ∧
    runs (start 0x4000 [0x16, 0x12, 12, 0] [(.r1, 3), (.r2, 3)] []) [(.ip, 0x4004)] [] = true := by decide

/-- V-J9, V-J10, V-J11. -/
theorem test_jzi :
    runs (start 0x4010 [0x17, 0x30, 0xF8, 0xFF] [(.r3, 0)] []) [(.ip, 0x400C)] [] = true ∧
    runs (start 0x4010 [0x17, 0x30, 0xF8, 0xFF] [(.r3, 1)] []) [(.ip, 0x4014)] [] = true ∧
    runs (start 0x0000 [0x17, 0x70, 0xFC, 0x00] [] []) [(.ip, 0x0100)] [] = true := by decide

/-- V-J16 (the source's E2), V-J18, V-J20. -/
theorem test_call :
    runs (start 0x4014 [0x18, 0, 0, 0] [] []) [(.sp, 0xFFEE), (.ip, 0x4018)] [(0xFFEE, 0x18), (0xFFEF, 0x40)] = true ∧
    runs (start 0xFFFC [0x18, 0, 0, 1] [] [(0xFFEE, 1), (0xFFEF, 1)])
      [(.sp, 0xFFEE), (.ip, 0x0100)] [(0xFFEE, 0), (0xFFEF, 0)] = true ∧
    faults (machine topFaulting 0x4000 [0x18, 0, 0xFC, 0x0F] [(.sp, 1)] []) .outOfBounds = true := by decide

/-- V-J23, V-J24, V-J26. -/
theorem test_ret :
    runs (start 0x4000 [0x19, 0, 0, 0] [(.sp, 0xFFEE)] [(0xFFEF, 0x60)]) [(.sp, 0xFFF0), (.ip, 0x6000)] [] = true ∧
    runs (start 0x4000 [0x19, 0, 0, 0] [(.sp, 0xFFFE)] [(0xFFFF, 0x50)]) [(.sp, 0x0000), (.ip, 0x5000)] [] = true ∧
    faults (machine topFaulting 0x4000 [0x19, 0, 0, 0] [(.sp, 0xFFFF)] []) .outOfBounds = true := by decide

/-! ## Stack (2.5) -/

/-- V-K1, V-K4, V-K8, V-K11. -/
theorem test_push :
    runs (start 0x4000 [0x1B, 0x10, 0, 0] [(.r1, 0x1234)] [])
      [(.sp, 0xFFEE), (.ip, 0x4004)] [(0xFFEE, 0x34), (0xFFEF, 0x12)] = true ∧
    runs (start 0x4000 [0x1B, 0x60, 0, 0] [] []) [(.sp, 0xFFEE), (.ip, 0x4004)] [(0xFFEE, 0xEE), (0xFFEF, 0xFF)] = true ∧
    runs (start 0x4000 [0x1B, 0x70, 0, 0] [] []) [(.sp, 0xFFEE), (.ip, 0x4004)] [(0xFFEF, 0x40)] = true ∧
    runs (start 0x4000 [0x1B, 0x10, 0, 0] [(.sp, 1), (.r1, 0x1234)] [])
      [(.sp, 0xFFFF), (.ip, 0x4004)] [(0x0000, 0x12), (0xFFFF, 0x34)] = true := by decide

/-- V-K5, V-K12. -/
theorem test_push_parameters :
    runs (machine pushOld 0x4000 [0x1B, 0x60, 0, 0] [] [])
      [(.sp, 0xFFEE), (.ip, 0x4004)] [(0xFFEE, 0xF0), (0xFFEF, 0xFF)] = true ∧
    faults (machine topFaulting 0x4000 [0x1B, 0x10, 0, 0] [(.sp, 1), (.r1, 0x1234)] []) .outOfBounds = true := by decide

/-- V-K2, V-K6, V-K9, V-K13. -/
theorem test_pop :
    runs (start 0x4000 [0x1A, 0x10, 0, 0] [(.sp, 0xFFEE)] [(0xFFEE, 0x34), (0xFFEF, 0x12)])
      [(.r1, 0x1234), (.sp, 0xFFF0), (.ip, 0x4004)] [] = true ∧
    runs (start 0x4000 [0x1A, 0x60, 0, 0] [(.sp, 0xFFEE)] [(0xFFEF, 0x80)]) [(.sp, 0x8002), (.ip, 0x4004)] [] = true ∧
    runs (start 0x4000 [0x1A, 0x70, 0, 0] [(.sp, 0xFFEE)] [(0xFFEF, 0x50)]) [(.sp, 0xFFF0), (.ip, 0x5004)] [] = true ∧
    runs (start 0x4000 [0x1A, 0x10, 0, 0] [(.sp, 0xFFFE)] [(0xFFFE, 0x01)])
      [(.r1, 1), (.sp, 0x0000), (.ip, 0x4004)] [] = true := by decide

/-- V-K7. -/
theorem test_pop_sp_loaded :
    runs (machine popLoaded 0x4000 [0x1A, 0x60, 0, 0] [(.sp, 0xFFEE)] [(0xFFEF, 0x80)])
      [(.sp, 0x8000), (.ip, 0x4004)] [] = true := by decide

/-- V-K3. -/
theorem test_pusi :
    runs (start 0x4000 [0x1C, 0, 0xCD, 0xAB] [] [])
      [(.sp, 0xFFEE), (.ip, 0x4004)] [(0xFFEE, 0xCD), (0xFFEF, 0xAB)] = true := by decide

/-! ## No-op, halt, system call and random number (2.6, 2.7) -/

/-- V-S1. -/
theorem test_nop : runs (start 0x4000 [0, 0, 0, 0] [(.r1, 7)] []) [(.ip, 0x4004)] [] = true := by decide

/-- V-S2. -/
theorem test_hlt : runs (start 0x4000 [0x11, 0, 0, 0] [(.r1, 7)] []) [] [] = true := by decide

/-- A state at a `SYS`, with these registers and these outcomes supplied to the default handler. -/
def atSys (regs : List (Reg × Word)) (stdin : List ReadOutcome) (results : List WriteOutcome) : State :=
  { start 0x4000 [0x1D, 0, 0, 0] regs [] with
    io := { stdin := stdin, reads := 0, writeResults := results, writes := 0, stdout := [] } }

/-- What a step leaves delivered on standard output. -/
def deliveredBytes (s : State) : Option (List Byte) :=
  match step s with
  | .next t => some t.io.stdout
  | _ => none

/-- V-S3, V-S4: a write that succeeds and one that fails. -/
theorem test_sys_write :
    (runs (atSys [(.ra, 1), (.r1, 0x0141)] [] [.success]) [(.ra, 0), (.ip, 0x4004)] [] = true ∧
      deliveredBytes (atSys [(.ra, 1), (.r1, 0x0141)] [] [.success]) = some [0x41]) ∧
    (runs (atSys [(.ra, 1), (.r1, 0x0041)] [] [.failure]) [(.ra, 0xFFFF), (.ip, 0x4004)] [] = true ∧
      deliveredBytes (atSys [(.ra, 1), (.r1, 0x0041)] [] [.failure]) = some []) := by decide

/-- V-S7, V-S8, V-S9, V-S10. -/
theorem test_sys_read :
    runs (atSys [(.ra, 0)] [.byte 0xFF] []) [(.ra, 0x00FF), (.ip, 0x4004)] [] = true ∧
    runs (atSys [(.ra, 0)] [.failure] []) [(.ra, 0xFFFF), (.ip, 0x4004)] [] = true ∧
    runs (atSys [(.ra, 2)] [.byte 0x41] []) [(.ra, 0), (.ip, 0x4004)] [] = true ∧
    runs (atSys [(.ra, 0x0100)] [.byte 0x41] []) [(.ra, 0), (.ip, 0x4004)] [] = true := by decide

/-- The PRNG state a step leaves. -/
def prngAfter (s : State) : Option (BitVec 64) :=
  match step s with
  | .next t => some t.prng
  | _ => none

/-- V-S13. -/
theorem test_rand :
    runs (start 0x4000 [0x1E, 0, 0, 0] [] []) [(.ra, 0x708C), (.ip, 0x4004)] [] = true ∧
    prngAfter (start 0x4000 [0x1E, 0, 0, 0] [] []) = some 0xA69CF1E9AA4D68FC := by decide

/-- The output's 64 bits (2.7, seed 1 and the all-ones seed, first draw). -/
theorem test_prng :
    prngNext 1 = 0x0000000002000001 ∧ prngOutput 0x0000000002000001 = 0x47E4CE4B896CDD1D ∧
    prngNext 0xFFFFFFFFFFFFFFFF = 0xFFF0001FFE000000 ∧ prngNext 0 = 0 ∧ prngOutput 0 = 0 := by decide

/-! ## Execute (2.1) -/

/-- `NOP ; HLT` at 0x4000. -/
def nopHlt : State := start 0x4000 [0, 0, 0, 0, 0x11, 0, 0, 0] [] []

/-- `NOP ; .word 0x1F` at 0x4000. -/
def nopBad : State := start 0x4000 [0, 0, 0, 0, 0x1F, 0, 0, 0] [] []

/-- What `execute` within 9 steps returns: the reason, `IP` and the lifecycle. -/
def executed (count : Int) (s : State) : Option (StopReason × Word × Life) :=
  (execute 9 count s).map fun r => (r.1, r.2.reg .ip, r.2.life)

/-- V-X1, V-X2, V-X3, V-X5. -/
theorem test_execute_budget :
    executed 0 nopHlt = some (.budgetExhausted, 0x4000, .sleeping) ∧
    executed 1 nopHlt = some (.budgetExhausted, 0x4004, .sleeping) ∧
    executed 2 nopHlt = some (.halt, 0x4004, .sleeping) ∧
    executed (-1) nopHlt = some (.halt, 0x4004, .sleeping) := by decide

/-- V-X6, V-X7, V-X8. -/
theorem test_execute_failures :
    executed (-1) nopBad = some (.invalidInstruction, 0x4004, .sleeping) ∧
    executed (-1) { nopHlt with life := .freed } = some (.invalidState, 0x4000, .freed) ∧
    executed (-1) { nopHlt with life := .executing } = some (.invalidState, 0x4000, .executing) := by decide

/-- The codes and results of 60_exceptions.md R362. -/
theorem test_stop_codes :
    StopReason.code .halt = 4 ∧ StopReason.code .budgetExhausted = 7 ∧ StopReason.success .halt = true ∧
    StopReason.success .ioError = false := by decide

/-! ## Host operations (2.8) -/

/-- V-H1, V-H2, V-H3, V-H4. -/
theorem test_host_memory_bounds :
    failure (writeMem 0xFFF0 (List.replicate 15 0xAA) (base Config.specDefaults)) = none ∧
    failure (writeMem 0xFFF0 (List.replicate 16 0xAA) (base Config.specDefaults)) = some .outOfBounds ∧
    failure (readMem 0xFFFF 1 (base Config.specDefaults)) = some .outOfBounds ∧
    failure (readMem 0xFFFF 0 (base Config.specDefaults)) = none := by decide

/-- V-H5, V-H6. -/
theorem test_put_code_bounds :
    failure (putCode 0xFFF8 [Instr.toRaw .nop, Instr.toRaw .hlt] (base Config.specDefaults)) = some .outOfBounds ∧
    (hostStep (.putCode 0xFFF4 [Instr.toRaw .nop, Instr.toRaw .hlt]) (base Config.specDefaults)).2.reg .ip = 0xFFF4 := by
  decide

/-- V-H7, V-H8, V-H9, V-H10. -/
theorem test_lifecycle :
    failure (writeMem 0x4000 [1] { nopHlt with life := .executing }) = some .invalidState ∧
    failure (readMem 0x4000 1 { nopHlt with life := .freed }) = some .invalidState ∧
    (hostStep .destroy nopHlt).2.life = .freed ∧
    (hostStep .destroy (hostStep .destroy nopHlt).2).1 = .failed .invalidState ∧
    failure (registerHandler (.registered 0) { nopHlt with life := .executing }) = some .invalidState := by decide

/-- 60_exceptions.md R377: the window is read from `SP` up, wrapping. -/
theorem test_dump_window :
    (hostStep (.dumpContext 3) (start 0x4000 [] [(.sp, 0xFFFE)] [(0xFFFE, 1), (0xFFFF, 2), (0x0000, 3)])).1
      = .context (start 0x4000 [] [(.sp, 0xFFFE)] []).regs [1, 2, 3] := by decide

/-! ## Disassembler (2.9) -/

/-- The example parameters of 2.9, with a placeholder of this test's own. -/
def disasmParams : DisasmParams :=
  { mnemonicWidth := 5, hexCase := .upper, callOperand := .resolved, placeholder := ['?'] }

/-- The line of the word with these bytes. -/
def line (p : DisasmParams) (a : Word) (b0 b1 b2 b3 : Byte) : Text × Bool := disasm p a (wordOfBytes b0 b1 b2 b3)

/-- V-D1, V-D2 (the source's E6), V-D3. -/
theorem test_disasm_literals :
    line disasmParams 0x4000 0x13 0x10 0x34 0x12
      = (['M', 'O', 'V', 'I', ' ', 'R', '1', ',', '0', 'x', '1', '2', '3', '4'], true) ∧
    line disasmParams 0x4020 0x03 0x77 0x04 0x00
      = (['J', 'M', 'P', ' ', ' ', '0', 'x', '4', '0', '2', '8'], true) ∧
    line disasmParams 0x4020 0x03 0x71 0x04 0x00
      = (['A', 'D', 'D', 'I', ' ', 'I', 'P', ',', 'R', '1', ',', '0', 'x', '0', '0', '0', '4'], true) := by decide

/-- V-D4, V-D6, V-D7, V-D8. -/
theorem test_disasm_targets :
    line disasmParams 0x4040 0x15 0x12 0xF0 0xFF
      = (['J', 'N', 'I', ' ', ' ', 'R', '1', ',', 'R', '2', ',', '0', 'x', '4', '0', '3', '4'], true) ∧
    line disasmParams 0x4000 0x02 0x12 0x0B 0x00
      = (['A', 'D', 'D', 'R', ' ', 'R', '1', ',', 'R', '2', ',', 'R', '3'], true) ∧
    line disasmParams 0x4014 0x18 0 0 0 = (['C', 'A', 'L', 'L', ' ', '0', 'x', '4', '0', '1', '8'], true) ∧
    line { disasmParams with callOperand := .raw } 0x4014 0x18 0 0 0
      = (['C', 'A', 'L', 'L', ' ', '0', 'x', '0', '0', '0', '0'], true) := by decide

/-- V-D9, V-D10, V-D17, V-D18. -/
theorem test_disasm_plain :
    line disasmParams 0x4000 0x11 0 0 0 = (['H', 'L', 'T', ' ', ' '], true) ∧
    line disasmParams 0x4000 0x1A 0x60 0 0 = (['P', 'O', 'P', ' ', ' ', 'S', 'P'], true) ∧
    line disasmParams 0x4000 0x1F 0 0 0 = (['?'], false) ∧ line disasmParams 0x4000 0x02 0x81 0 0 = (['?'], false) := by
  decide

/-! ## Image codec and loader (2.10) -/

/-- The example parameters of 2.10: the letter Q, upper case for a 1. -/
def imageParams : ImageParams := { magic := 0xA55A, version := 0x0001, letter := 16, oneCase := .upper }

/-- The character of a 1 bit, `Q`. -/
def one : Byte := 0x51

/-- The character of a 0 bit, `q`. -/
def nil : Byte := 0x71

/-- The bytes a run of characters decodes to. -/
def decoded (cs : List Byte) : Option (List Byte) :=
  match decodeChars imageParams cs with
  | .ok bs => some bs
  | .error _ => none

/-- V-L2, V-L2b. -/
theorem test_decode_chars :
    decoded [nil, one, nil, nil, nil, nil, nil, one] = some [0x41] ∧
    decoded (List.replicate 8 nil) = some [0x00] ∧ decoded (List.replicate 8 one) = some [0xFF] := by decide

/-- V-L3, its first two groups; V-L4. -/
theorem test_encode_chars :
    encodeChars imageParams [0x13, 0x10]
      = [nil, nil, nil, one, nil, nil, one, one, nil, nil, nil, one, nil, nil, nil, nil] ∧
    decoded [one, nil, nil, one, nil, nil, one, one] = some [0x93] := by decide

/-- V-L5, V-L6: `x` at position 3, a space at position 7. -/
theorem test_invalid_chars :
    failure (decodeChars imageParams [nil, nil, nil, 0x78, nil, nil, one, one]) = some .decodeError ∧
    failure (decodeChars imageParams [nil, nil, nil, one, nil, nil, one, 0x20]) = some .decodeError := by decide

/-- The image of V-L1. -/
def image : Image := { entry := 0x4000, sections := [(0x4000, [0x13, 0x10, 0x34, 0x12, 0x11, 0, 0, 0])] }

/-- V-L1's decoded bytes. -/
theorem test_image_bytes :
    imageBytes imageParams image = [0x5A, 0xA5, 0x01, 0x00, 0x00, 0x40, 0x01, 0x00, 0x00, 0x40, 0x08, 0x00,
      0x13, 0x10, 0x34, 0x12, 0x11, 0x00, 0x00, 0x00] := by decide

/-- `load` of these decoded bytes, the source ending in this way after them. -/
def loaded (bytes : List Byte) (ending : SourceEnd) (s : State) : Except StopReason (State × ByteSource) :=
  load imageParams { chars := encodeChars imageParams bytes, ending := ending } s

/-- `IP` and the bytes from 0x4000 on after a load. -/
def landed (n : Nat) (r : Except StopReason (State × ByteSource)) : Option (Word × List Byte) :=
  match r with
  | .ok (t, _) => some (t.reg .ip, t.bytes 0x4000 n)
  | .error _ => none

/-- V-L13, V-L16. -/
theorem test_load_entry :
    landed 0 (loaded [0x5A, 0xA5, 1, 0, 0x34, 0x12, 1, 0, 0xFF, 0xFF, 0, 0] .exhausted (base Config.specDefaults))
      = some (0x1234, []) ∧
    landed 0 (loaded [0x5A, 0xA5, 1, 0, 0xFE, 0xFF, 0, 0] .exhausted (base Config.specDefaults)) = some (0xFFFE, []) := by
  decide

set_option maxRecDepth 4000 in
/-- V-L14: the later section wins. -/
theorem test_load_overlap :
    landed 3 (loaded [0x5A, 0xA5, 1, 0, 0, 0x40, 2, 0, 0, 0x40, 2, 0, 1, 0x40, 2, 0, 0xAA, 0xBB, 0xCC, 0xDD] .exhausted
      (base Config.specDefaults)) = some (0x4000, [0xAA, 0xCC, 0xDD]) := by decide

/-- V-L8, V-L9, V-L19: magic and version are checked before anything else. -/
theorem test_load_bad_header :
    failure (loaded [0x5A, 0xA4, 1, 0, 0, 0x40, 0, 0] .exhausted (base Config.specDefaults)) = some .decodeError ∧
    failure (loaded [0x5A, 0xA5, 2, 0, 0, 0x40, 0, 0] .exhausted (base Config.specDefaults)) = some .decodeError ∧
    failure (loaded [0x5A, 0xA4, 1, 0, 0, 0x40, 1, 0, 0xFF, 0xFF, 1, 0, 7] .exhausted (base Config.specDefaults))
      = some .decodeError := by decide

/-- V-L10, V-L12, V-L17, V-L18. -/
theorem test_load_failures :
    failure (loaded [0x5A, 0xA5, 1, 0, 0, 0x40, 0] .exhausted (base Config.specDefaults)) = some .decodeError ∧
    failure (loaded [0x5A, 0xA5, 1, 0, 0, 0x40, 1, 0, 0xFE, 0xFF, 2, 0, 7, 7] .exhausted (base Config.specDefaults))
      = some .outOfBounds ∧
    failure (loaded [0x5A, 0xA5, 1, 0, 0, 0x40, 1, 0, 0, 0x40, 2, 0, 7] .readFailure (base Config.specDefaults))
      = some .ioError ∧
    failure (loaded [0x5A, 0xA5, 1, 0, 0, 0x40, 0, 0] .exhausted { nopHlt with life := .freed }) = some .invalidState := by
  decide

/-! ## Witnesses: the hypotheses of the statements can be met, each clause at a boundary -/

theorem witness_IllegalWordsRejected :
    BadRegister 0x00008000#32 ∧ BadRegister 0x00000800#32 ∧
    (¬ BadRegister 0x0000001F#32 ∧ (0x0000001F#32).toNat % 256 > 0x1E) ∧
    (¬ BadRegister 0x0000771E#32 ∧ (0x0000771E#32).toNat % 256 ≤ 0x1E) := by
  unfold BadRegister; decide

/-- `HLT` with its unread fields set; `ADDR` with two immediates that agree in their low 3 bits; a bad register. -/
theorem witness_UnreadFieldsIgnored :
    (decode 0x00000011#32 = .ok .hlt ∧ ¬ BadRegister 0xFFFF7711#32 ∧
      (RawInstr.ofWord 0xFFFF7711#32).opcode = (RawInstr.ofWord 0x00000011#32).opcode ∧
      Instr.hlt.shape.readsDst = false ∧ Instr.hlt.shape.readsSrc = false ∧ Instr.hlt.shape.readsThird = false ∧
      Instr.hlt.shape.readsImm = false) ∧
    (decode 0x00031202#32 = .ok (.addr .r1 .r2 .r3) ∧ ¬ BadRegister 0xFFFB1202#32 ∧
      (RawInstr.ofWord 0xFFFB1202#32).opcode = (RawInstr.ofWord 0x00031202#32).opcode ∧
      (RawInstr.ofWord 0xFFFB1202#32).dst = (RawInstr.ofWord 0x00031202#32).dst ∧
      (RawInstr.ofWord 0xFFFB1202#32).src = (RawInstr.ofWord 0x00031202#32).src ∧
      (RawInstr.ofWord 0xFFFB1202#32).imm.toNat % 8 = (RawInstr.ofWord 0x00031202#32).imm.toNat % 8 ∧
      (Instr.addr .r1 .r2 .r3).shape.readsImm = false) ∧
    BadRegister 0x00000811#32 := by
  refine ⟨⟨rfl, by unfold BadRegister; decide, by decide⟩, ⟨rfl, by unfold BadRegister; decide, by decide⟩, .inr rfl⟩

/-- For every opcode whose fields are checked though not all are read: a word of it with a bad `dst`, and one with a bad
`src` (the hypotheses of `FieldsChecked`). -/
theorem witness_FieldsChecked :
    ∀ n ∈ [0x00, 0x11, 0x13, 0x17, 0x18, 0x19, 0x1A, 0x1B, 0x1C, 0x1D, 0x1E],
      ((BitVec.ofNat 32 (0x8000 + n)).toNat % 256 = n ∧ BadRegister (BitVec.ofNat 32 (0x8000 + n))) ∧
      ((BitVec.ofNat 32 (0x0800 + n)).toNat % 256 = n ∧ BadRegister (BitVec.ofNat 32 (0x0800 + n))) := by
  unfold BadRegister; decide

/-- A `NOP` at the last fetch address. -/
theorem witness_StepRunsDecodedInstruction :
    ((start 0xFFFC [0, 0, 0, 0] [] []).reg .ip).toNat ≤ 0xFFFC ∧
    decode (wordAtIp (start 0xFFFC [0, 0, 0, 0] [] [])) = .ok .nop := ⟨by decide, rfl⟩

theorem witness_StepChecksInOrder :
    ((start 0xFFFD [] [] []).reg .ip).toNat > 0xFFFC ∧
    (((start 0xFFFC [0xFF, 0x80, 0, 0] [] []).reg .ip).toNat ≤ 0xFFFC ∧
      BadRegister (wordAtIp (start 0xFFFC [0xFF, 0x80, 0, 0] [] []))) ∧
    (¬ BadRegister (wordAtIp (start 0xFFFC [0x1F, 0, 0, 0] [] [])) ∧
      (wordAtIp (start 0xFFFC [0x1F, 0, 0, 0] [] [])).toNat % 256 > 0x1E) ∧
    (¬ BadRegister (wordAtIp (start 0xFFFC [0x1E, 0, 0, 0] [] [])) ∧
      (wordAtIp (start 0xFFFC [0x1E, 0, 0, 0] [] [])).toNat % 256 ≤ 0x1E) := by
  unfold BadRegister; decide

/-- A step that stores, from a state with the invariant, to the state it leaves; also for the statement that steps keep
the lifecycle, the handler and the parameters. -/
theorem witness_StepKeepsInvariant :
    (start 0x4000 [0x1B, 0x10, 0, 0] [(.r1, 0x1234)] []).Inv ∧
    ∃ t : State, step (start 0x4000 [0x1B, 0x10, 0, 0] [(.r1, 0x1234)] []) = .next t := ⟨by decide, _, rfl⟩

theorem witness_HostOpsKeepInvariant : State.reset.Inv ∧ nopHlt.Inv := ⟨by decide, by decide⟩

theorem witness_NotComplements :
    (base Config.specDefaults).cfg.notOp = .bitwise ∧ (base logicalNot).cfg.notOp = .logical := by decide

/-- `LD` and `ST` with the base at 0xFFFF, with and without the fault, and one byte below it. -/
theorem witness_data_access :
    (start 0x4000 [] [(.r2, 0xFFFF)] []).Inv ∧
    ¬ TopFaults (start 0x4000 [] [(.r2, 0xFFFF)] []) ((start 0x4000 [] [(.r2, 0xFFFF)] []).reg .r2 + 0) ∧
    ¬ TopFaults (machine topFaulting 0x4000 [] [(.r2, 0xFFFE)] [])
      ((machine topFaulting 0x4000 [] [(.r2, 0xFFFE)] []).reg .r2 + 0) ∧
    (machine topFaulting 0x4000 [] [(.r2, 0xFFFF)] []).Inv ∧
    TopFaults (machine topFaulting 0x4000 [] [(.r2, 0xFFFF)] [])
      ((machine topFaulting 0x4000 [] [(.r2, 0xFFFF)] []).reg .r2 + 0) := by
  unfold TopFaults; decide

/-- `CALL`, `PUSH`, `PUSI` and their round trips: `SP` at 1 and 2 under the fault, at 1 under the wrap. -/
theorem witness_push :
    ((start 0x4000 [] [(.sp, 1)] []).Inv ∧
      ¬ TopFaults (start 0x4000 [] [(.sp, 1)] []) ((start 0x4000 [] [(.sp, 1)] []).reg .sp - 2)) ∧
    ¬ TopFaults (machine topFaulting 0x4000 [] [(.sp, 2)] []) ((machine topFaulting 0x4000 [] [(.sp, 2)] []).reg .sp - 2) ∧
    ((machine topFaulting 0x4000 [] [(.sp, 1)] []).Inv ∧
      TopFaults (machine topFaulting 0x4000 [] [(.sp, 1)] []) ((machine topFaulting 0x4000 [] [(.sp, 1)] []).reg .sp - 2)) ∧
    (Reg.r1 ≠ .sp ∧ Reg.r2 ≠ .sp ∧ Reg.r2 ≠ .ip) := by
  unfold TopFaults; decide

/-- `POP` and `RET`: `SP` at 0xFFFF under the wrap, at 0xFFFE and 0xFFFF under the fault. -/
theorem witness_pop :
    ¬ TopFaults (start 0x4000 [] [(.sp, 0xFFFF)] []) ((start 0x4000 [] [(.sp, 0xFFFF)] []).reg .sp) ∧
    ¬ TopFaults (machine topFaulting 0x4000 [] [(.sp, 0xFFFE)] [])
      ((machine topFaulting 0x4000 [] [(.sp, 0xFFFE)] []).reg .sp) ∧
    TopFaults (machine topFaulting 0x4000 [] [(.sp, 0xFFFF)] [])
      ((machine topFaulting 0x4000 [] [(.sp, 0xFFFF)] []).reg .sp) := by
  unfold TopFaults; decide

/-- Both sides of each branch condition, where they meet. -/
theorem witness_branches :
    ((start 0 [] [(.r1, 3), (.r2, 3)] []).reg .r1 = (start 0 [] [(.r1, 3), (.r2, 3)] []).reg .r2) ∧
    ((start 0 [] [(.r1, 3), (.r2, 4)] []).reg .r1 ≠ (start 0 [] [(.r1, 3), (.r2, 4)] []).reg .r2) ∧
    ((start 0 [] [(.r1, 0x8000), (.r2, 0x7FFF)] []).reg .r1).toNat
      > ((start 0 [] [(.r1, 0x8000), (.r2, 0x7FFF)] []).reg .r2).toNat ∧
    ¬ ((start 0 [] [(.r1, 3), (.r2, 3)] []).reg .r1).toNat > ((start 0 [] [(.r1, 3), (.r2, 3)] []).reg .r2).toNat ∧
    (start 0 [] [(.r1, 0)] []).reg .r1 = 0 ∧ (start 0 [] [(.r1, 1)] []).reg .r1 ≠ 0 := by decide

theorem witness_HltStopsTheRun :
    (start 0xFFFC [0x11, 0, 0, 0] [] []).life = .sleeping ∧ (-1 : Int) ≠ 0 ∧
    ((start 0xFFFC [0x11, 0, 0, 0] [] []).reg .ip).toNat ≤ 0xFFFC ∧
    decode (wordAtIp (start 0xFFFC [0x11, 0, 0, 0] [] [])) = .ok .hlt := ⟨rfl, by decide, by decide, rfl⟩

/-- The default handler's three cases of `RA`, and each outcome of a read and of a write. -/
theorem witness_SysDefaultHandler :
    (atSys [(.ra, 0)] [] []).sys = .default ∧
    ((atSys [(.ra, 0)] [.byte 0xFF] []).reg .ra = 0 ∧ readOutcome (atSys [(.ra, 0)] [.byte 0xFF] []).io = .byte 0xFF) ∧
    ((atSys [(.ra, 0)] [.failure] []).reg .ra = 0 ∧ readOutcome (atSys [(.ra, 0)] [.failure] []).io = .failure) ∧
    ((atSys [(.ra, 0)] [] []).reg .ra = 0 ∧ (atSys [(.ra, 0)] [] []).io.stdin = []) ∧
    ((atSys [(.ra, 1)] [] [.success]).reg .ra = 1 ∧ writeOutcome (atSys [(.ra, 1)] [] [.success]).io = .success) ∧
    ((atSys [(.ra, 1)] [] [.failure]).reg .ra = 1 ∧ writeOutcome (atSys [(.ra, 1)] [] [.failure]).io = .failure) ∧
    ((atSys [(.ra, 1)] [] []).reg .ra = 1 ∧ (atSys [(.ra, 1)] [] []).io.writeResults = []) ∧
    ((atSys [(.ra, 2)] [] []).reg .ra ≠ 0 ∧ (atSys [(.ra, 2)] [] []).reg .ra ≠ 1) := by decide

theorem witness_SysRegisteredHandler :
    ({ nopHlt with sys := .registered 0 } : State).sys = .registered 0 ∧ Memory.wf [(0, 1), (0xFFFF, 2)] = true := by
  decide

/-- `LD` goes to a next state, or faults under the fault parameter; both for another instruction than `RAND`. -/
theorem witness_OnlyRandUsesPrng :
    (Instr.ld .r1 .r2 0 ≠ .rand ∧ (Instr.ld .r1 .r2 0 = .sys → nopHlt.sys = .default) ∧
      ∃ t : State, exec (.ld .r1 .r2 0) nopHlt = .next t) ∧
    exec (.ld .r1 .r2 0) (machine topFaulting 0x4000 [] [(.r2, 0xFFFF)] []) = .fault .outOfBounds ∧
    (Instr.sys ≠ .rand ∧ ∃ t : State, exec .sys nopHlt = .next t) :=
  ⟨⟨by decide, by decide, _, rfl⟩, rfl, by decide, _, rfl⟩

theorem witness_LifecycleGuardsEveryOperation :
    ({ nopHlt with life := .freed } : State).life ≠ .sleeping ∧
    ({ nopHlt with life := .executing } : State).life ≠ .sleeping := by decide

theorem witness_ExecuteReturnsWithinBudget : nopHlt.life = .sleeping ∧ 0 ≤ 0 ∧ 3 ≤ 3 := by decide

/-- A run that exhausts its budget of 1, and the run of 1 after it, which halts. -/
theorem witness_BudgetExhaustedIsAPause :
    ∃ (t u : State), execute 1 ((1 : Nat) : Int) nopHlt = some (.budgetExhausted, t) ∧
      execute 1 ((1 : Nat) : Int) t = some (.halt, u) := ⟨_, _, rfl, rfl⟩

/-- A run that halts; also for the statement that the fuel does not matter. -/
theorem witness_HaltRepeats : (∃ t : State, execute 2 (-1) nopHlt = some (.halt, t)) ∧ (1 : Int) ≠ 0 :=
  ⟨⟨_, rfl⟩, by decide⟩

/-- A run that ends in each of the three faults. -/
theorem witness_FaultRepeats :
    (∃ t : State, execute 2 (-1) nopBad = some (StopReason.ofFault .invalidInstruction, t)) ∧
    (∃ t : State, execute 1 (-1) (start 0xFFFD [] [] []) = some (StopReason.ofFault .outOfBounds, t)) ∧
    (∃ t : State, execute 1 (-1) (start 0x4000 [0, 8, 0, 0] [] []) = some (StopReason.ofFault .invalidRegister, t)) ∧
    (2 : Int) ≠ 0 := ⟨⟨_, rfl⟩, ⟨_, rfl⟩, ⟨_, rfl⟩, by decide⟩

theorem witness_WriteMemAndReadMem :
    nopHlt.Inv ∧ nopHlt.life = .sleeping ∧ (0xFFFE : Word).toNat + [(7 : Byte)].length < 0x10000 ∧
    (0xFFFF : Word).toNat + [(7 : Byte)].length ≥ 0x10000 ∧ (0xFFFF : Word).toNat + 0 < 0x10000 ∧
    (0xFFFF : Word).toNat + 1 ≥ 0x10000 ∧ ({ nopHlt with life := .freed } : State).life ≠ .sleeping := by decide

theorem witness_PutCodePlacesProgram :
    nopHlt.Inv ∧ nopHlt.life = .sleeping ∧ (0xFFFB : Word).toNat + 4 * [Instr.toRaw .hlt].length < 0x10000 ∧
    (0xFFFC : Word).toNat + 4 * [Instr.toRaw .hlt].length ≥ 0x10000 ∧ [Instr.toRaw .hlt] = Instr.toRaw .hlt :: [] ∧
    ({ nopHlt with life := .freed } : State).life ≠ .sleeping := by decide

/-- An operation that is neither `put_code` nor `load`, and an `ADDI` that is not the idiom. -/
theorem witness_other_operations :
    (∀ (a : Word) (c : List RawInstr), HostOp.destroy ≠ .putCode a c) ∧
    (∀ (p : ImageParams) (src : ByteSource), HostOp.destroy ≠ .load p src) ∧ ¬ (Reg.ip = .ip ∧ Reg.r1 = .ip) :=
  ⟨fun _ _ h => (nomatch h), fun _ _ h => (nomatch h), by decide⟩

/-- `x` at position 3 (V-L5). -/
theorem witness_CodecRoundTrip :
    (0x78 : Byte) ∈ [nil, nil, nil, 0x78, nil, nil, one, one] ∧ (0x78 : Byte) ≠ bitChar imageParams true ∧
    (0x78 : Byte) ≠ bitChar imageParams false := by decide

/-- An image with a section that ends at the last byte the host can write, and an empty one at the top. -/
theorem witness_LoadOfEncodedImage :
    nopHlt.Inv ∧ nopHlt.life = .sleeping ∧
    (Image.mk 0xFFFF [(0xFFFE, [1]), (0xFFFF, [])]).sections.length < 0x10000 ∧
    ∀ sec : Word × List Byte, sec ∈ (Image.mk 0xFFFF [(0xFFFE, [1]), (0xFFFF, [])]).sections →
      sec.1.toNat + sec.2.length < 0x10000 := by decide

end Sys2Proof.Tests
end

section
/-!
SUPPORT. What each register and each other field of a VM holds right after create (10_state.md R35), so that no later
proof unfolds `State.create`, and the settling of the obligation about it.
-/
namespace Sys2Proof.Machine

variable (d : ResetDraws) (cfg : Config)

/-! ## Registers after create -/

@[simp] theorem State.create_reg_ra : (State.create d cfg).reg .ra = d.ra := rfl
@[simp] theorem State.create_reg_r1 : (State.create d cfg).reg .r1 = d.r1 := rfl
@[simp] theorem State.create_reg_r2 : (State.create d cfg).reg .r2 = d.r2 := rfl
@[simp] theorem State.create_reg_r3 : (State.create d cfg).reg .r3 = d.r3 := rfl
@[simp] theorem State.create_reg_r4 : (State.create d cfg).reg .r4 = d.r4 := rfl
@[simp] theorem State.create_reg_r5 : (State.create d cfg).reg .r5 = d.r5 := rfl
@[simp] theorem State.create_reg_sp : (State.create d cfg).reg .sp = 0xFFF0 := rfl
@[simp] theorem State.create_reg_ip : (State.create d cfg).reg .ip = d.ip := rfl

/-! ## The other fields R35 speaks of -/

@[simp] theorem State.create_mem : (State.create d cfg).mem = d.mem := rfl
@[simp] theorem State.create_prng : (State.create d cfg).prng = d.seed := rfl
@[simp] theorem State.create_life : (State.create d cfg).life = .sleeping := rfl
@[simp] theorem State.create_sys : (State.create d cfg).sys = .default := rfl

end Sys2Proof.Machine

namespace Sys2Proof.Proofs
open Sys2Proof.Machine

/-- Settles O11: field by field for every draw; `State.reset` is create on the named draws, so its three fixed values
are instances of the same lemmas (10_state.md R35). -/
theorem createGivesResetState : Obligations.CreateGivesResetState := by
  unfold Obligations.CreateGivesResetState
  have reset_is_create : State.reset = State.create ResetDraws.named Config.specDefaults := rfl
  constructor
  · intro d cfg
    simp
  · rw [reset_is_create]
    exact ⟨State.create_reg_sp _ _, State.create_life _ _, State.create_sys _ _⟩

end Sys2Proof.Proofs
end

section
/-!
SUPPORT. What `put_code` places and what the next step then fetches (20_memory.md R61, 30_encoding.md R87), the host
operations that leave the register file alone (60_exceptions.md R370), and the settling of the obligation about them.
-/
namespace Sys2Proof

/-! ## Decoding what the encoder wrote -/

/-- The checks accept the fields of every instruction and give it back. The register forms need
`thirdReg_zeroExtend`, since their third register travels in `imm`. -/
theorem Instr.ofRaw_toRaw (i : Instr) : Instr.ofRaw i.toRaw = .ok i := by
  have ra_field : Reg.ofField 0#4 = some .ra := rfl
  cases i <;>
    simp [Instr.ofRaw, Instr.toRaw, Instr.dstField, Instr.srcField, Instr.immField, Instr.opcode, Instr.ofOpcode,
      Reg.ofField_toField, thirdReg_zeroExtend, ra_field]

theorem decode_encode (i : Instr) : decode (encode i) = .ok i := by
  rw [decode, encode, RawInstr.ofWord_toWord, Instr.ofRaw_toRaw]

namespace Machine

/-- Within the fetch bound, a step runs what the decoder makes of the word at `IP` (40_cycle.md R121 to R125). -/
theorem step_of_decode {s : State} {i : Instr} (hip : (s.reg .ip).toNat ≤ 0xFFFC)
    (hd : decode (wordAtIp s) = .ok i) : step s = exec i s := by
  refine step_of_fetchDecode ?_
  rw [fetchDecode, if_neg (Nat.not_lt.2 hip), show s.fetchWord = wordAtIp s from rfl, hd]

/-! ## The bytes of a program -/

theorem codeBytes_eq_flatMap (code : List RawInstr) : codeBytes code = code.flatMap fun f => bytesOfWord f.toWord := by
  induction code with
  | nil => rfl
  | cons f rest ih => rw [codeBytes, ih, List.flatMap_cons]

theorem length_codeBytes (code : List RawInstr) : (codeBytes code).length = 4 * code.length := by
  induction code with
  | nil => rfl
  | cons f rest ih =>
    rw [codeBytes, List.length_append, ih, List.length_cons, show (bytesOfWord f.toWord).length = 4 from rfl]
    omega

/-- The `k`-th of the bytes written stands `k` above the address of the write. -/
theorem State.byte_setBytes_add {s : State} {b k : Word} {bs : List Byte} {x : Byte} (h : s.Inv)
    (hb : b.toNat + bs.length ≤ 0x10000) (hx : bs[k.toNat]? = some x) : (s.setBytes b bs).byte (b + k) = x := by
  have hk : k.toNat < bs.length := (List.getElem?_eq_some_iff.1 hx).1
  have hbk : (b + k).toNat = b.toNat + k.toNat := by bv_omega
  rw [State.byte_setBytes bs s b (b + k) h hb, covered, hbk, if_pos (Nat.le_add_right _ _), Nat.add_sub_cancel_left, hx]
  rfl

/-! ## `put_code`, case by case -/

theorem putCode_of_not_sleeping {s : State} (addr : Word) (code : List RawInstr) (h : s.life ≠ .sleeping) :
    putCode addr code s = .error .invalidState := if_pos h

theorem putCode_of_beyond {addr : Word} {code : List RawInstr} {s : State} (h : s.life = .sleeping)
    (hb : addr.toNat + 4 * code.length ≥ 0x10000) : putCode addr code s = .error .outOfBounds := by
  rw [putCode, if_neg (not_not.2 h), if_pos hb]

/-- The state `put_code` leaves within the bound. -/
def State.placeCode (s : State) (addr : Word) (code : List RawInstr) : State :=
  (s.setBytes addr (codeBytes code)).setReg .ip addr

theorem putCode_of_within {addr : Word} {code : List RawInstr} {s : State} (h : s.life = .sleeping)
    (hb : addr.toNat + 4 * code.length < 0x10000) : putCode addr code s = .ok (s.placeCode addr code) := by
  rw [putCode, if_neg (not_not.2 h), if_neg (Nat.not_le.2 hb), State.placeCode]

@[simp] theorem State.placeCode_ip (s : State) (addr : Word) (code : List RawInstr) :
    (s.placeCode addr code).reg .ip = addr := State.reg_setReg_self _ _ _

theorem State.placeCode_reg_ne (s : State) (addr : Word) (code : List RawInstr) {q : Reg} (hq : q ≠ .ip) :
    (s.placeCode addr code).reg q = s.reg q := by
  obtain ⟨hregs, -⟩ := State.setBytes_frame (codeBytes code) s addr
  rw [State.placeCode, State.reg_setReg_ne _ _ _ _ hq, State.reg, hregs, State.reg]

theorem State.placeCode_sameControl (s : State) (addr : Word) (code : List RawInstr) :
    SameControl s (s.placeCode addr code) := (State.setBytes_frame (codeBytes code) s addr).2

theorem State.placeCode_byte (s : State) (addr : Word) (code : List RawInstr) (a : Word) :
    (s.placeCode addr code).byte a = (s.setBytes addr (codeBytes code)).byte a := State.setReg_byte _ _ _ _

/-- The word at `IP` after a program is placed is the program's first word. -/
theorem State.wordAtIp_placeCode_cons {s : State} {addr : Word} {f : RawInstr} {rest : List RawInstr} (h : s.Inv)
    (hb : addr.toNat + 4 * (f :: rest).length < 0x10000) : wordAtIp (s.placeCode addr (f :: rest)) = f.toWord := by
  have hlen : addr.toNat + (codeBytes (f :: rest)).length ≤ 0x10000 := by rw [length_codeBytes]; exact hb.le
  have at0 := State.byte_setBytes_add (k := 0#16) (x := f.toWord.extractLsb' 0 8) h hlen rfl
  have at1 := State.byte_setBytes_add (k := 1) (x := f.toWord.extractLsb' 8 8) h hlen rfl
  have at2 := State.byte_setBytes_add (k := 2) (x := f.toWord.extractLsb' 16 8) h hlen rfl
  have at3 := State.byte_setBytes_add (k := 3) (x := f.toWord.extractLsb' 24 8) h hlen rfl
  rw [BitVec.add_zero] at at0
  simp only [wordAtIp, State.placeCode_ip, State.placeCode_byte, at0, at1, at2, at3]
  exact wordOfBytes_bytes f.toWord

/-- The step after a program is placed runs its first instruction. -/
theorem step_placeCode_cons {s : State} {addr : Word} {i : Instr} {rest : List RawInstr} (h : s.Inv)
    (hb : addr.toNat + 4 * (i.toRaw :: rest).length < 0x10000) :
    step (s.placeCode addr (i.toRaw :: rest)) = exec i (s.placeCode addr (i.toRaw :: rest)) := by
  refine step_of_decode ?_ ?_
  · rw [List.length_cons] at hb
    rw [State.placeCode_ip]
    omega
  · rw [State.wordAtIp_placeCode_cons h hb]
    exact decode_encode i

/-! ## Host operations that leave the registers alone -/

theorem writeMem_regs {addr : Word} {bytes : List Byte} {s t : State} (h : writeMem addr bytes s = .ok t) :
    t.regs = s.regs := by
  unfold writeMem at h
  split_ifs at h
  cases h
  exact (State.setBytes_frame bytes s addr).1

theorem registerHandler_regs {hd : Handler} {s t : State} (h : registerHandler hd s = .ok t) : t.regs = s.regs := by
  unfold registerHandler at h
  split_ifs at h
  cases h
  rfl

theorem destroy_regs {s t : State} (h : destroy s = .ok t) : t.regs = s.regs := by
  unfold destroy at h
  split_ifs at h
  cases h
  rfl

/-- An operation whose success keeps the registers keeps them: a failure leaves the VM as it was
(60_exceptions.md R361). -/
theorem afterWrite_regs {s : State} {r : Except StopReason State} (h : ∀ t : State, r = .ok t → t.regs = s.regs) :
    (afterWrite s r).2.regs = s.regs := by
  cases r with
  | error e => rfl
  | ok t => exact h t rfl

theorem hostStep_readMem_state (addr : Word) (len : Nat) (s : State) : (hostStep (.readMem addr len) s).2 = s := by
  simp only [hostStep]
  cases readMem addr len s <;> rfl

theorem hostStep_dumpContext_state (window : Nat) (s : State) : (hostStep (.dumpContext window) s).2 = s := by
  simp only [hostStep]
  cases dumpContext window s <;> rfl

/-- No host operation but `put_code` and `load` writes a register. -/
theorem hostStep_regs {op : HostOp} {s : State} (hput : ∀ (a : Word) (c : List RawInstr), op ≠ .putCode a c)
    (hload : ∀ (p : ImageParams) (src : ByteSource), op ≠ .load p src) : (hostStep op s).2.regs = s.regs := by
  cases op with
  | writeMem addr bytes => exact afterWrite_regs fun _ => writeMem_regs
  | readMem addr len => rw [hostStep_readMem_state]
  | putCode addr code => exact absurd rfl (hput addr code)
  | load p src => exact absurd rfl (hload p src)
  | registerHandler hd => exact afterWrite_regs fun _ => registerHandler_regs
  | dumpContext window => rw [hostStep_dumpContext_state]
  | destroy => exact afterWrite_regs fun _ => destroy_regs

end Machine
end Sys2Proof

namespace Sys2Proof.Proofs
open Sys2Proof.Machine

/-- Settles O56: the three cases of `put_code` in the order of its checks, its success read off
`State.placeCode`, and `hostStep_regs` for the other host operations (20_memory.md R61). -/
theorem putCodePlacesProgram : Obligations.PutCodePlacesProgram := by
  unfold Obligations.PutCodePlacesProgram
  refine ⟨fun addr code s hinv hlife => ⟨putCode_of_beyond hlife, fun hb => ?_⟩, fun op s hput hload => ?_,
    fun addr code s => putCode_of_not_sleeping addr code⟩
  · refine ⟨s.placeCode addr code, putCode_of_within hlife hb, State.placeCode_ip s addr code,
      fun _ => State.placeCode_reg_ne s addr code, State.placeCode_sameControl s addr code, fun a => ?_, ?_⟩
    · have hlen : addr.toNat + (codeBytes code).length ≤ 0x10000 := by rw [length_codeBytes]; exact hb.le
      rw [State.placeCode_byte, State.byte_setBytes _ s addr a hinv hlen, codeBytes_eq_flatMap]
      rfl
    · rintro i rest rfl
      exact step_placeCode_cons hinv hb
  · rw [State.reg, hostStep_regs hput hload, State.reg]

end Sys2Proof.Proofs
end

section
/-!
SUPPORT. What the decoder answers on each of the three kinds of word (30_encoding.md R93), and the settling of the
obligations about the decoder's verdicts and the fields of a word.
-/
namespace Sys2Proof.Machine

variable {w : BitVec 32}

/-! ## The decoder's answer, by the kind of word -/

/-- The register fields are checked before the opcode, so a bad one decides alone (40_cycle.md R122). -/
theorem decode_of_badRegister (hbad : BadRegister w) : decode w = .error .invalidRegister := by
  obtain ⟨-, hdec⟩ | ⟨hgood, -⟩ | ⟨hgood, -⟩ := decode_cases w
  · exact hdec
  · exact absurd hbad hgood
  · exact absurd hbad hgood

theorem decode_of_unknown_opcode (hgood : ¬ BadRegister w) (hop : w.toNat % 256 > 0x1E) :
    decode w = .error .invalidInstruction := by
  obtain ⟨hbad, -⟩ | ⟨-, -, hdec⟩ | ⟨-, hop', -⟩ := decode_cases w
  · exact absurd hbad hgood
  · exact hdec
  · exact absurd hop (Nat.not_lt.2 hop')

theorem exists_decode_eq_ok (hgood : ¬ BadRegister w) (hop : w.toNat % 256 ≤ 0x1E) : ∃ i : Instr, decode w = .ok i := by
  obtain ⟨hbad, -⟩ | ⟨-, hop', -⟩ | ⟨-, -, _, _, i, -, -, -, hdec⟩ := decode_cases w
  · exact absurd hbad hgood
  · exact absurd hop (Nat.not_le.2 hop')
  · exact ⟨i, hdec⟩

end Sys2Proof.Machine

namespace Sys2Proof.Proofs
open Sys2Proof.Machine

/-- Settles O2: one clause for each kind of word that `decode_cases` tells apart (30_encoding.md R93). -/
theorem illegalWordsRejected : Obligations.IllegalWordsRejected := by
  unfold Obligations.IllegalWordsRejected
  exact fun w => ⟨decode_of_badRegister, decode_of_unknown_opcode, exists_decode_eq_ok⟩

/-- Settles O3: the value of each extracted field, and the index of the register `thirdReg` picks
(30_encoding.md R81). -/
theorem fieldsExtracted : Obligations.FieldsExtracted := by
  unfold Obligations.FieldsExtracted
  exact ⟨fun w => ⟨RawInstr.ofWord_opcode_toNat w, RawInstr.ofWord_src_toNat w, RawInstr.ofWord_dst_toNat w,
    RawInstr.ofWord_imm_toNat w⟩, thirdReg_toField⟩

end Sys2Proof.Proofs
end

section
/-!
SUPPORT. What a step answers when the fetch bound or the decoder stops it (40_cycle.md R120 to R123), beside
`step_of_decode` for a word that passes, and the settling of the obligation about the order of its checks.
-/
namespace Sys2Proof.Machine

variable {s : State}

/-! ## A step that one of the checks stops -/

theorem step_of_fetchDecode_error {f : Fault} (h : fetchDecode s = .error f) : step s = .fault f := by
  rw [step, h]
  rfl

/-- Beyond the fetch bound nothing is fetched, so memory has no say (40_cycle.md R120). -/
theorem step_of_ip_beyond (hip : (s.reg .ip).toNat > 0xFFFC) : step s = .fault .outOfBounds :=
  step_of_fetchDecode_error (if_pos hip)

/-- Within the fetch bound, a step raises the decoder's verdict on the word at `IP` (40_cycle.md R122, R123). -/
theorem step_of_reject {r : Reject} (hip : (s.reg .ip).toNat ≤ 0xFFFC) (hd : decode (wordAtIp s) = .error r) :
    step s = .fault (Fault.ofReject r) := by
  refine step_of_fetchDecode_error ?_
  rw [fetchDecode, if_neg (Nat.not_lt.2 hip), show s.fetchWord = wordAtIp s from rfl, hd]

end Sys2Proof.Machine

namespace Sys2Proof.Proofs
open Sys2Proof.Machine

/-- Settles O7: beyond the fetch bound the step stops there; within it, the step follows the decoder's verdict on each
of the three kinds of word (40_cycle.md R120, R122, R123). -/
theorem stepChecksInOrder : Obligations.StepChecksInOrder := by
  unfold Obligations.StepChecksInOrder
  refine fun s => ⟨step_of_ip_beyond, fun hip hbad => ?_, fun hip hgood hop => ?_, fun hip hgood hop => ?_⟩
  · exact step_of_reject hip (decode_of_badRegister hbad)
  · exact step_of_reject hip (decode_of_unknown_opcode hgood hop)
  · obtain ⟨i, hd⟩ := exists_decode_eq_ok hgood hop
    exact ⟨i, hd, step_of_decode hip hd⟩

end Sys2Proof.Proofs
end

section
/-!
SUPPORT. What the arithmetic and logic instructions do (41_alu.md R139 to R154): an equation for each instruction of the
register and immediate forms, what an instruction of that shape leaves, and the settling of the obligations about them.
-/
namespace Sys2Proof.Machine

/-! ## Decoding a word of a known opcode -/

/-- A word whose register fields are legal decodes to what the opcode table has for it (30_encoding.md R91). -/
theorem decode_wordOf_eq_ok {op : BitVec 8} {d a : Reg} {v : Word} {i : Instr} (h : Instr.ofOpcode op d a v = some i) :
    decode (wordOf op d a v) = .ok i := by
  rw [decode_wordOf, h]

/-! ## The effects -/

section Effects

variable (d a b : Reg) (v : Word) (s : State)

@[simp] theorem exec_addr : exec (.addr d a b) s = finish (s.setReg d (s.reg a + s.reg b)) := rfl
@[simp] theorem exec_addi : exec (.addi d a v) s = finish (s.setReg d (s.reg a + v)) := rfl
@[simp] theorem exec_mulr : exec (.mulr d a b) s = finish (s.setReg d (s.reg a * s.reg b)) := rfl
@[simp] theorem exec_muli : exec (.muli d a v) s = finish (s.setReg d (s.reg a * v)) := rfl
@[simp] theorem exec_andr : exec (.andr d a b) s = finish (s.setReg d (s.reg a &&& s.reg b)) := rfl
@[simp] theorem exec_andi : exec (.andi d a v) s = finish (s.setReg d (s.reg a &&& v)) := rfl
@[simp] theorem exec_orr : exec (.orr d a b) s = finish (s.setReg d (s.reg a ||| s.reg b)) := rfl
@[simp] theorem exec_ori : exec (.ori d a v) s = finish (s.setReg d (s.reg a ||| v)) := rfl
@[simp] theorem exec_xorr : exec (.xorr d a b) s = finish (s.setReg d (s.reg a ^^^ s.reg b)) := rfl
@[simp] theorem exec_xori : exec (.xori d a v) s = finish (s.setReg d (s.reg a ^^^ v)) := rfl
@[simp] theorem exec_not : exec (.not d a) s = finish (s.setReg d (notWord s.cfg.notOp (s.reg a))) := rfl

end Effects

/-! ## What `NOT` computes, under each value of `NotOp` -/

@[simp] theorem notWord_bitwise (v : Word) : notWord .bitwise v = 0xFFFF ^^^ v := BitVec.not_def

@[simp] theorem notWord_logical (v : Word) : notWord .logical v = if v = 0 then 1 else 0 := rfl

/-! ## An instruction that writes one register and ends -/

section OneWrite

variable {i : Instr} {s : State} {d : Reg}

/-- `finish_setReg`, for an instruction whose effect is that one write (41_alu.md R139). -/
theorem exec_next_writesReg {v : Word} (h : exec i s = finish (s.setReg d v)) :
    ∃ t, exec i s = .next t ∧ WritesReg s d v t := by
  rw [h]
  exact finish_setReg s d v

/-- A product is written as the low 16 bits of the product of the two values (41_alu.md R143, R144). -/
theorem exec_next_writesReg_mul {x y : Word} (h : exec i s = finish (s.setReg d (x * y))) :
    ∃ t, exec i s = .next t ∧ ∃ p : Word, p.toNat = x.toNat * y.toNat % 65536 ∧ WritesReg s d p t := by
  obtain ⟨t, ht, hw⟩ := exec_next_writesReg h
  exact ⟨t, ht, x * y, BitVec.toNat_mul x y, hw⟩

end OneWrite

end Sys2Proof.Machine

namespace Sys2Proof.Proofs
open Sys2Proof.Machine

/-! ## Arithmetic -/

/-- Settles O14: row 0x02 of the opcode table, and the one write of `exec_addr` (41_alu.md R141). -/
theorem addrAdds : Obligations.AddrAdds := by
  unfold Obligations.AddrAdds
  exact ⟨fun _ _ _ => decode_wordOf_eq_ok rfl, fun d a b s => exec_next_writesReg (exec_addr d a b s)⟩

/-- Settles O15: row 0x03 of the opcode table, and the one write of `exec_addi` (41_alu.md R142). -/
theorem addiAdds : Obligations.AddiAdds := by
  unfold Obligations.AddiAdds
  exact ⟨fun _ _ _ => decode_wordOf_eq_ok rfl, fun d a v s => exec_next_writesReg (exec_addi d a v s)⟩

/-- Settles O16: row 0x04 of the opcode table, and the product `exec_mulr` writes (41_alu.md R143). -/
theorem mulrMultiplies : Obligations.MulrMultiplies := by
  unfold Obligations.MulrMultiplies
  exact ⟨fun _ _ _ => decode_wordOf_eq_ok rfl, fun d a b s => exec_next_writesReg_mul (exec_mulr d a b s)⟩

/-- Settles O17: row 0x05 of the opcode table, and the product `exec_muli` writes (41_alu.md R144). -/
theorem muliMultiplies : Obligations.MuliMultiplies := by
  unfold Obligations.MuliMultiplies
  exact ⟨fun _ _ _ => decode_wordOf_eq_ok rfl, fun d a v s => exec_next_writesReg_mul (exec_muli d a v s)⟩

/-! ## Logic -/

/-- Settles O18: row 0x06 of the opcode table, and the one write of `exec_andr` (41_alu.md R145). -/
theorem andrAnds : Obligations.AndrAnds := by
  unfold Obligations.AndrAnds
  exact ⟨fun _ _ _ => decode_wordOf_eq_ok rfl, fun d a b s => exec_next_writesReg (exec_andr d a b s)⟩

/-- Settles O19: row 0x07 of the opcode table, and the one write of `exec_andi` (41_alu.md R146). -/
theorem andiAnds : Obligations.AndiAnds := by
  unfold Obligations.AndiAnds
  exact ⟨fun _ _ _ => decode_wordOf_eq_ok rfl, fun d a v s => exec_next_writesReg (exec_andi d a v s)⟩

/-- Settles O20: row 0x08 of the opcode table, and the one write of `exec_orr` (41_alu.md R147). -/
theorem orrOrs : Obligations.OrrOrs := by
  unfold Obligations.OrrOrs
  exact ⟨fun _ _ _ => decode_wordOf_eq_ok rfl, fun d a b s => exec_next_writesReg (exec_orr d a b s)⟩

/-- Settles O21: row 0x09 of the opcode table, and the one write of `exec_ori` (41_alu.md R148). -/
theorem oriOrs : Obligations.OriOrs := by
  unfold Obligations.OriOrs
  exact ⟨fun _ _ _ => decode_wordOf_eq_ok rfl, fun d a v s => exec_next_writesReg (exec_ori d a v s)⟩

/-- Settles O22: row 0x0A of the opcode table, and the one write of `exec_xorr` (41_alu.md R149). -/
theorem xorrXors : Obligations.XorrXors := by
  unfold Obligations.XorrXors
  exact ⟨fun _ _ _ => decode_wordOf_eq_ok rfl, fun d a b s => exec_next_writesReg (exec_xorr d a b s)⟩

/-- Settles O23: row 0x0B of the opcode table, and the one write of `exec_xori` (41_alu.md R150). -/
theorem xoriXors : Obligations.XoriXors := by
  unfold Obligations.XoriXors
  exact ⟨fun _ _ _ => decode_wordOf_eq_ok rfl, fun d a v s => exec_next_writesReg (exec_xori d a v s)⟩

/-- Settles O26: row 0x0E of the opcode table, and the one write of `exec_not`, whose value is read off for each value
of `NotOp` (41_alu.md R154). -/
theorem notComplements : Obligations.NotComplements := by
  unfold Obligations.NotComplements
  refine ⟨fun _ _ _ => decode_wordOf_eq_ok rfl, fun d a s => ?_⟩
  obtain ⟨t, ht, hw⟩ := exec_next_writesReg (exec_not d a s)
  refine ⟨t, ht, fun hop => ?_, fun hop => ?_⟩
  · rwa [hop, notWord_bitwise] at hw
  · rwa [hop, notWord_logical] at hw

end Sys2Proof.Proofs
end

section
/-!
SUPPORT. What the loads, stores and moves do (42_move_memory.md R179 to R183): the two outcomes of a data access as the
instructions see them, what a store leaves, and the settling of the obligations about them.
-/
namespace Sys2Proof.Machine

/-! ## Fields that are checked, not read -/

/-- The register check comes before the opcode check, so it holds of the words of every opcode (40_cycle.md R122). -/
theorem fieldsChecked (opcode : Nat) : FieldsChecked opcode := fun _ _ hbad => decode_of_badRegister hbad

/-! ## The effects -/

section Effects

variable {d a : Reg} {v : Word} {s : State}

@[simp] theorem exec_movr (d a : Reg) (s : State) : exec (.movr d a) s = finish (s.setReg d (s.reg a)) := rfl
@[simp] theorem exec_movi (d : Reg) (v : Word) (s : State) : exec (.movi d v) s = finish (s.setReg d v) := rfl

/-- The load reads at the base's old value, also when `d = a` (42_move_memory.md R180). -/
theorem exec_ld_of_not_topFaults (h : ¬ TopFaults s (s.reg a + v)) :
    exec (.ld d a v) s = finish (s.setReg d (wordAt s (s.reg a + v))) := by
  rw [exec, execLd, State.effAddr, loadWord_ok h]

theorem exec_ld_of_topFaults (h : TopFaults s (s.reg a + v)) : exec (.ld d a v) s = .fault .outOfBounds := by
  rw [exec, execLd, State.effAddr, loadWord_fault h]
  rfl

/-- The register stored is `d`, and the base is `a` (42_move_memory.md R181, 90_conflicts.md C1). -/
theorem exec_st_of_not_topFaults (h : ¬ TopFaults s (s.reg a + v)) :
    exec (.st d a v) s = finish (s.setWord (s.reg a + v) (s.reg d)) := by
  rw [exec, execSt, State.effAddr, storeWord_ok h]

theorem exec_st_of_topFaults (h : TopFaults s (s.reg a + v)) : exec (.st d a v) s = .fault .outOfBounds := by
  rw [exec, execSt, State.effAddr, storeWord_fault h]
  rfl

end Effects

/-! ## An instruction that stores one word and ends -/

theorem State.sameControl_setWord (s : State) (a v : Word) : SameControl s (s.setWord a v) :=
  ⟨rfl, rfl, rfl, rfl, rfl, rfl⟩

/-- An instruction that stores a word and ends: it completes, and the trailing increment is its only change to a
register (42_move_memory.md R181). -/
theorem finish_setWord {s : State} (h : s.Inv) (a v : Word) :
    ∃ t, finish (s.setWord a v) = .next t ∧ StoresWord s a v t ∧ SameControl s t ∧
      ∀ q : Reg, t.reg q = if q = .ip then s.reg .ip + 4 else s.reg q :=
  ⟨_, rfl, State.storesWord_setWord s a v h, State.sameControl_setWord s a v, State.reg_advance (s.setWord a v)⟩

end Sys2Proof.Machine

namespace Sys2Proof.Proofs
open Sys2Proof.Machine

/-! ## Moves -/

/-- Settles O27: row 0x12 of the opcode table, and the one write of `exec_movr` (42_move_memory.md R182). -/
theorem movrCopies : Obligations.MovrCopies := by
  unfold Obligations.MovrCopies
  exact ⟨fun _ _ _ => decode_wordOf_eq_ok rfl, fun d a s => exec_next_writesReg (exec_movr d a s)⟩

/-- Settles O28: row 0x13 of the opcode table, the register check on the unread `src` as for every opcode, and the one
write of `exec_movi` (42_move_memory.md R183). -/
theorem moviLoadsLiteral : Obligations.MoviLoadsLiteral := by
  unfold Obligations.MoviLoadsLiteral
  exact ⟨fun _ _ _ => decode_wordOf_eq_ok rfl, fieldsChecked _, fun d v s => exec_next_writesReg (exec_movi d v s)⟩

/-! ## Data accesses -/

/-- Settles O29: row 0x0F of the opcode table; a load that does not fault is one register write (42_move_memory.md
R180). -/
theorem ldLoadsWord : Obligations.LdLoadsWord := by
  unfold Obligations.LdLoadsWord
  refine ⟨fun _ _ _ => decode_wordOf_eq_ok rfl, fun d a v s => ⟨fun hok => ?_, exec_ld_of_topFaults⟩⟩
  exact exec_next_writesReg (exec_ld_of_not_topFaults hok)

/-- Settles O30: row 0x10 of the opcode table; a store that does not fault is the one of `finish_setWord`
(42_move_memory.md R181). -/
theorem stStoresWord : Obligations.StStoresWord := by
  unfold Obligations.StStoresWord
  refine ⟨fun _ _ _ => decode_wordOf_eq_ok rfl, fun d a v s hinv => ⟨fun hok => ?_, exec_st_of_topFaults⟩⟩
  rw [exec_st_of_not_topFaults hok]
  exact finish_setWord hinv (s.reg a + v) (s.reg d)

end Sys2Proof.Proofs
end

section
/-!
SUPPORT. What the branches, `CALL` and `RET` do (43_control.md R199 to R206): each branch by its condition, `CALL` as a
push and a branch that is taken, `RET` as two register writes, and the settling of the obligations about them.
-/
namespace Sys2Proof.Machine

/-! ## An instruction that branches -/

/-- `branchIf_next`, for an instruction whose effect is a branch on whether `p` holds (43_control.md R199). -/
theorem exec_next_movesTo {i : Instr} {s : State} {v : Word} {p : Prop} [Decidable p]
    (h : exec i s = branchIf (decide p) v s) : ∃ t, exec i s = .next t ∧
      (p → MovesTo s (s.reg .ip + v + 4) t) ∧ (¬ p → MovesTo s (s.reg .ip + 4) t) := by
  obtain ⟨t, ht, htaken, hnot⟩ := branchIf_next (decide p) v s
  exact ⟨t, h.trans ht, fun hp => htaken (decide_eq_true hp), fun hp => hnot (decide_eq_false hp)⟩

/-! ## The state after a push -/

theorem SameControl.trans {s t u : State} (hst : SameControl s t) (htu : SameControl t u) : SameControl s u := by
  obtain ⟨hprng, hlife, hsys, hio, hhalted, hcfg⟩ := hst
  obtain ⟨hprng', hlife', hsys', hio', hhalted', hcfg'⟩ := htu
  exact ⟨hprng'.trans hprng, hlife'.trans hlife, hsys'.trans hsys, hio'.trans hio, hhalted'.trans hhalted,
    hcfg'.trans hcfg⟩

/-- The state a push that does not fault leaves (44_stack.md R230). -/
def State.pushed (s : State) (v : Word) : State := (s.setWord (s.reg .sp - 2) v).setReg .sp (s.reg .sp - 2)

theorem pushWord_eq_pushed {s : State} {v : Word} (h : ¬ TopFaults s (s.reg .sp - 2)) :
    pushWord s v = .ok (s.pushed v) := pushWord_ok h

theorem State.reg_pushed (s : State) (v : Word) (q : Reg) :
    (s.pushed v).reg q = if q = .sp then s.reg .sp - 2 else s.reg q := State.reg_setReg _ _ _ _

@[simp] theorem State.pushed_ip (s : State) (v : Word) : (s.pushed v).reg .ip = s.reg .ip := rfl

theorem State.storesWord_pushed {s : State} (h : s.Inv) (v : Word) : StoresWord s (s.reg .sp - 2) v (s.pushed v) :=
  State.storesWord_setWord s _ v h

theorem State.sameControl_pushed (s : State) (v : Word) : SameControl s (s.pushed v) :=
  State.sameControl_setWord s (s.reg .sp - 2) v

/-! ## The effects -/

section Effects

variable (d a : Reg) (v : Word) (s : State)

@[simp] theorem exec_jei : exec (.jei d a v) s = branchIf (decide (s.reg d = s.reg a)) v s := rfl
@[simp] theorem exec_jni : exec (.jni d a v) s = branchIf (decide (s.reg d ≠ s.reg a)) v s := rfl
@[simp] theorem exec_jgi : exec (.jgi d a v) s = branchIf (decide ((s.reg d).toNat > (s.reg a).toNat)) v s := rfl
@[simp] theorem exec_jzi : exec (.jzi d v) s = branchIf (decide (s.reg d = 0)) v s := rfl

variable {v s}

/-- The return address is taken before the branch, and the push leaves `IP` alone, so a call branches from the address
of the `CALL` (43_control.md R205). -/
theorem exec_call_of_not_topFaults (h : ¬ TopFaults s (s.reg .sp - 2)) :
    exec (.call v) s = branchIf true v (s.pushed (s.reg .ip + 4)) := by
  rw [exec, execCall, pushWord_eq_pushed h, branchIf, if_pos rfl, State.pushed_ip]

theorem exec_call_of_topFaults (h : TopFaults s (s.reg .sp - 2)) : exec (.call v) s = .fault .outOfBounds := by
  rw [exec, execCall, pushWord_fault h]
  rfl

/-- No trailing increment follows the popped address (43_control.md R206). -/
theorem exec_ret_of_not_topFaults (h : ¬ TopFaults s (s.reg .sp)) :
    exec .ret s = .next ((s.setReg .sp (s.reg .sp + 2)).setReg .ip (wordAt s (s.reg .sp))) := by
  rw [exec, execRet, loadWord_ok h]

theorem exec_ret_of_topFaults (h : TopFaults s (s.reg .sp)) : exec .ret s = .fault .outOfBounds := by
  rw [exec, execRet, loadWord_fault h]
  rfl

end Effects

/-- A push and then a branch that is taken: it completes, the memory change is the push's, and the registers are `SP`
from the push and `IP` from the branch. -/
theorem branchIf_true_pushed {s : State} (h : s.Inv) (v w : Word) :
    ∃ t, branchIf true v (s.pushed w) = .next t ∧ StoresWord s (s.reg .sp - 2) w t ∧ SameControl s t ∧
      ∀ q : Reg, t.reg q =
        if q = .ip then s.reg .ip + v + 4 else if q = .sp then s.reg .sp - 2 else s.reg q := by
  obtain ⟨t, ht, htaken, -⟩ := branchIf_next true v (s.pushed w)
  obtain ⟨hreg, hmem, hcontrol⟩ := htaken rfl
  refine ⟨t, ht, fun b => ?_, (State.sameControl_pushed s w).trans hcontrol, fun q => ?_⟩
  · rw [hmem, State.storesWord_pushed h w]
  · rw [hreg, State.pushed_ip, State.reg_pushed]

end Sys2Proof.Machine

namespace Sys2Proof.Proofs
open Sys2Proof.Machine

/-! ## Branches -/

/-- Settles O31: row 0x14 of the opcode table, and the branch of `exec_jei` (43_control.md R200). -/
theorem jeiBranchesOnEqual : Obligations.JeiBranchesOnEqual := by
  unfold Obligations.JeiBranchesOnEqual
  exact ⟨fun _ _ _ => decode_wordOf_eq_ok rfl, fun d a v s => exec_next_movesTo (exec_jei d a v s)⟩

/-- Settles O32: row 0x15 of the opcode table, and the branch of `exec_jni` (43_control.md R201). -/
theorem jniBranchesOnUnequal : Obligations.JniBranchesOnUnequal := by
  unfold Obligations.JniBranchesOnUnequal
  exact ⟨fun _ _ _ => decode_wordOf_eq_ok rfl, fun d a v s => exec_next_movesTo (exec_jni d a v s)⟩

/-- Settles O33: row 0x16 of the opcode table, and the branch of `exec_jgi` (43_control.md R202). -/
theorem jgiBranchesOnGreater : Obligations.JgiBranchesOnGreater := by
  unfold Obligations.JgiBranchesOnGreater
  exact ⟨fun _ _ _ => decode_wordOf_eq_ok rfl, fun d a v s => exec_next_movesTo (exec_jgi d a v s)⟩

/-- Settles O34: row 0x17 of the opcode table, the register check on the unread `src` as for every opcode, and the
branch of `exec_jzi` (43_control.md R203). -/
theorem jziBranchesOnZero : Obligations.JziBranchesOnZero := by
  unfold Obligations.JziBranchesOnZero
  exact ⟨fun _ _ _ => decode_wordOf_eq_ok rfl, fieldsChecked _, fun d v s => exec_next_movesTo (exec_jzi d v s)⟩

/-! ## Call and return -/

/-- Settles O35: row 0x18 of the opcode table, the register check on the unread fields, and a call that does not fault
as a push and a taken branch (43_control.md R205). -/
theorem callPushesReturnAddress : Obligations.CallPushesReturnAddress := by
  unfold Obligations.CallPushesReturnAddress
  refine ⟨fun _ _ _ => decode_wordOf_eq_ok rfl, fieldsChecked _, fun v s hinv => ⟨fun hok => ?_, exec_call_of_topFaults⟩⟩
  rw [exec_call_of_not_topFaults hok]
  exact branchIf_true_pushed hinv v (s.reg .ip + 4)

/-- Settles O36: row 0x19 of the opcode table, the register check on the unread fields, and a return that does not fault
as two register writes, `IP` last (43_control.md R206). -/
theorem retPopsIp : Obligations.RetPopsIp := by
  unfold Obligations.RetPopsIp
  refine ⟨fun _ _ _ => decode_wordOf_eq_ok rfl, fieldsChecked _, fun s => ⟨fun hok => ?_, exec_ret_of_topFaults⟩⟩
  refine ⟨_, exec_ret_of_not_topFaults hok, fun _ => rfl, ⟨rfl, rfl, rfl, rfl, rfl, rfl⟩, fun q => ?_⟩
  rw [State.reg_setReg, State.reg_setReg]

end Sys2Proof.Proofs
end

section
/-!
SUPPORT. What `POP`, `PUSH` and `PUSI` do (44_stack.md R230 to R233): `POP` as a write of `dst` and then of `SP`, the
other two as a push and the trailing increment, and the settling of the obligations about them.
-/
namespace Sys2Proof.Machine

/-! ## The state after a pop -/

/-- What a pop into `d` leaves in `SP`, under `PopSpResult` when `d` is `SP` (44_stack.md R231). -/
def State.spAfterPop (s : State) (d : Reg) : Word :=
  if d = .sp then
    (if s.cfg.popSpResult = .loaded then wordAt s (s.reg .sp) else wordAt s (s.reg .sp) + 2)
  else s.reg .sp + 2

/-- The state a pop that does not fault leaves, before the trailing increment (44_stack.md R231). -/
def State.popped (s : State) (d : Reg) : State :=
  (s.setReg d (wordAt s (s.reg .sp))).setReg .sp (s.spAfterPop d)

theorem State.reg_popped (s : State) (d q : Reg) : (s.popped d).reg q =
    if q = .sp then s.spAfterPop d else if q = d then wordAt s (s.reg .sp) else s.reg q := by
  rw [State.popped, State.reg_setReg, State.reg_setReg]

/-- The write of `SP` leaves `IP` alone, so after `POP IP` the trailing increment finds the popped value (44_stack.md
R231). -/
theorem State.popped_ip (s : State) (d : Reg) :
    (s.popped d).reg .ip = if d = .ip then wordAt s (s.reg .sp) else s.reg .ip := by
  rw [State.reg_popped, if_neg (by decide)]
  simp only [eq_comm]

theorem State.setReg_setReg_same (s : State) (r : Reg) (v w : Word) : (s.setReg r v).setReg r w = s.setReg r w := by
  cases r <;> rfl

/-! ## The value pushed -/

theorem State.pushOperand_eq (s : State) (d : Reg) : s.pushOperand d =
    if d = .sp then (if s.cfg.pushSpValue = .new then s.reg .sp - 2 else s.reg .sp) else s.reg d := by
  unfold State.pushOperand
  cases s.cfg.pushSpValue <;> rfl

/-! ## The effects -/

section Effects

variable {d : Reg} {v : Word} {s : State}

/-- Under either `PopSpResult` a pop writes `dst` and then `SP`: of `POP SP`'s two writes the last stands (44_stack.md
R231). -/
theorem exec_pop_of_not_topFaults (h : ¬ TopFaults s (s.reg .sp)) : exec (.pop d) s = finish (s.popped d) := by
  rw [exec, execPop, loadWord_ok h, State.popped, State.spAfterPop]
  by_cases hd : d = .sp
  · subst hd
    by_cases hl : s.cfg.popSpResult = .loaded
    · simp [hl, State.setReg_setReg_same]
    · simp [hl]
  · simp [hd, State.reg_setReg_ne s d .sp _ (Ne.symm hd)]

theorem exec_pop_of_topFaults (h : TopFaults s (s.reg .sp)) : exec (.pop d) s = .fault .outOfBounds := by
  rw [exec, execPop, loadWord_fault h]
  rfl

theorem exec_push_of_not_topFaults (h : ¬ TopFaults s (s.reg .sp - 2)) :
    exec (.push d) s = finish (s.pushed (s.pushOperand d)) := by
  rw [exec, execPush, pushWord_eq_pushed h]

theorem exec_push_of_topFaults (h : TopFaults s (s.reg .sp - 2)) : exec (.push d) s = .fault .outOfBounds := by
  rw [exec, execPush, pushWord_fault h]
  rfl

theorem exec_pusi_of_not_topFaults (h : ¬ TopFaults s (s.reg .sp - 2)) :
    exec (.pusi v) s = finish (s.pushed v) := by
  rw [exec, execPusi, pushWord_eq_pushed h]

theorem exec_pusi_of_topFaults (h : TopFaults s (s.reg .sp - 2)) : exec (.pusi v) s = .fault .outOfBounds := by
  rw [exec, execPusi, pushWord_fault h]
  rfl

end Effects

/-- An instruction that pushes a word and ends: it completes, the memory change is the push's, and the registers are
`SP` from the push and `IP` from the trailing increment (44_stack.md R232, R233). -/
theorem finish_pushed {s : State} (h : s.Inv) (v : Word) :
    ∃ t, finish (s.pushed v) = .next t ∧ StoresWord s (s.reg .sp - 2) v t ∧ SameControl s t ∧
      ∀ q : Reg, t.reg q =
        if q = .ip then s.reg .ip + 4 else if q = .sp then s.reg .sp - 2 else s.reg q := by
  refine ⟨_, rfl, State.storesWord_pushed h v, State.sameControl_pushed s v, fun q => ?_⟩
  rw [State.reg_advance, State.pushed_ip, State.reg_pushed]

end Sys2Proof.Machine

namespace Sys2Proof.Proofs
open Sys2Proof.Machine

/-- Settles O37: row 0x1A of the opcode table, the register check on the unread `src`, and a pop that does not fault as
the registers of `State.popped` with the trailing increment (44_stack.md R231). -/
theorem popLoadsFromStack : Obligations.PopLoadsFromStack := by
  unfold Obligations.PopLoadsFromStack
  refine ⟨fun _ _ _ => decode_wordOf_eq_ok rfl, fieldsChecked _, fun d s => ⟨fun hok => ?_, exec_pop_of_topFaults⟩⟩
  refine ⟨_, exec_pop_of_not_topFaults hok, fun _ => rfl, ⟨rfl, rfl, rfl, rfl, rfl, rfl⟩, fun q => ?_⟩
  rw [State.reg_advance, State.popped_ip, State.reg_popped, State.spAfterPop]

/-- Settles O38: row 0x1B of the opcode table, the register check on the unread `src`, and a `PUSH` that does not fault
as the push of `finish_pushed`, of the operand `PushSpValue` picks (44_stack.md R232). -/
theorem pushStoresOnStack : Obligations.PushStoresOnStack := by
  unfold Obligations.PushStoresOnStack
  refine ⟨fun _ _ _ => decode_wordOf_eq_ok rfl, fieldsChecked _,
    fun d s hinv => ⟨fun hok => ?_, exec_push_of_topFaults⟩⟩
  rw [exec_push_of_not_topFaults hok, ← State.pushOperand_eq]
  exact finish_pushed hinv (s.pushOperand d)

/-- Settles O39: row 0x1C of the opcode table, the register check on the unread fields, and a `PUSI` that does not fault
as the push of `finish_pushed`, of the literal (44_stack.md R233). -/
theorem pusiStoresLiteral : Obligations.PusiStoresLiteral := by
  unfold Obligations.PusiStoresLiteral
  refine ⟨fun _ _ _ => decode_wordOf_eq_ok rfl, fieldsChecked _,
    fun v s hinv => ⟨fun hok => ?_, exec_pusi_of_topFaults⟩⟩
  rw [exec_pusi_of_not_topFaults hok]
  exact finish_pushed hinv v

end Sys2Proof.Proofs
end

section
/-!
SUPPORT. The line of an instruction and the `JMP` idiom (46_disassembler.md R281 to R288, 30_encoding.md R97): the idiom
as a branch that is always taken, every other instruction's line by its shape, and the settling of the obligation about
them.
-/
namespace Sys2Proof

/-- The immediate of `JMP t` at `a` reaches `t` (30_encoding.md R96, R97). -/
@[simp] theorem relativeTarget_relativeImm (a t : Word) : relativeTarget a (relativeImm a t) = t := by
  unfold relativeTarget relativeImm
  bv_omega

namespace Machine

/-! ## The line of an encoded instruction -/

/-- The disassembler reads a word with the engine's decoder, so it prints what was encoded (46_disassembler.md R281). -/
theorem disasm_encode (p : DisasmParams) (a : Word) (i : Instr) : disasm p a (encode i) = (render p a i, true) := by
  rw [disasm, decode_encode]

theorem render_addi_ip_ip (p : DisasmParams) (a v : Word) : render p a (.addi .ip .ip v) =
    padRight ['J', 'M', 'P'] p.mnemonicWidth ++ hex4 p.hexCase (relativeTarget a v) := rfl

/-- Only the idiom prints otherwise than by its mnemonic and its operands (46_disassembler.md R282, R287). -/
theorem render_of_not_idiom (p : DisasmParams) (a : Word) {i : Instr} (h : ∀ v : Word, i ≠ .addi .ip .ip v) :
    render p a i =
      padRight (mnemonicText i) p.mnemonicWidth ++ joinComma ((operandsOf p.callOperand i).map (operandText p a)) := by
  unfold render
  split
  · next v => exact absurd rfl (h v)
  · rfl

theorem joinComma_three (x y z : Text) : joinComma [x, y, z] = x ++ [','] ++ y ++ [','] ++ z := by
  simp [joinComma]

/-- An `ADDI` on other registers is no idiom, and its operands are those of its shape (46_disassembler.md R288). -/
theorem render_addi_of_not_idiom (p : DisasmParams) (a v : Word) {d b : Reg} (h : ¬ (d = .ip ∧ b = .ip)) :
    render p a (.addi d b v) = padRight ['A', 'D', 'D', 'I'] p.mnemonicWidth ++
      (regText d ++ [','] ++ regText b ++ [','] ++ hex4 p.hexCase v) := by
  have not_idiom : ∀ u : Word, Instr.addi d b v ≠ .addi .ip .ip u := by
    rintro u heq
    injection heq with hd hb
    exact h ⟨hd, hb⟩
  rw [render_of_not_idiom p a not_idiom, ← joinComma_three]
  rfl

/-! ## The effect of the idiom -/

/-- Adding to `IP` what a taken branch adds, the idiom is a branch whose condition always holds (43_control.md R199). -/
theorem exec_addi_ip_ip (v : Word) (s : State) : exec (.addi .ip .ip v) s = branchIf true v s := rfl

/-- The idiom continues at the target the disassembler prints for it. -/
theorem exec_addi_ip_ip_movesTo (v : Word) (s : State) :
    ∃ t, exec (.addi .ip .ip v) s = .next t ∧ MovesTo s (relativeTarget (s.reg .ip) v) t := by
  obtain ⟨t, ht, htaken, -⟩ := branchIf_next true v s
  exact ⟨t, (exec_addi_ip_ip v s).trans ht, htaken rfl⟩

theorem exec_jmp_movesTo (target : Word) (s : State) :
    ∃ t, exec (Instr.jmp (s.reg .ip) target) s = .next t ∧ MovesTo s target t := by
  have reaches := exec_addi_ip_ip_movesTo (relativeImm (s.reg .ip) target) s
  rwa [relativeTarget_relativeImm] at reaches

end Machine
end Sys2Proof

namespace Sys2Proof.Proofs
open Sys2Proof.Machine

/-- Settles O60: the two lines of an `ADDI`, then the idiom as a branch that is taken, whose target is the one its line
prints and, for `JMP t`, is `t` (46_disassembler.md R287, 30_encoding.md R97). -/
theorem jumpIdiomReachesPrintedTarget : Obligations.JumpIdiomReachesPrintedTarget := by
  unfold Obligations.JumpIdiomReachesPrintedTarget
  refine ⟨fun p a imm => ?_, fun p a imm d b hnot => ?_, exec_addi_ip_ip_movesTo, exec_jmp_movesTo⟩
  · rw [disasm_encode, render_addi_ip_ip, relativeTarget]
  · rw [disasm_encode, render_addi_of_not_idiom p a imm hnot]

end Sys2Proof.Proofs
end

section
/-!
SUPPORT. What the effect of any instruction can answer and what it leaves alone (40_cycle.md R126), said once for all of
them, and the settling of the obligations that speak of every instruction or every step.
-/
namespace Sys2Proof.Machine

/-! ## What an effect leaves alone -/

/-- What every effect but that of `HLT` keeps of the state it starts from: the canonical form of memory, the lifecycle,
the bound handler, the model's `halted` and the open parameters (10_state.md R29 to R31). -/
structure EffectKeeps (s t : State) : Prop where
  inv    : s.Inv → t.Inv
  life   : t.life = s.life
  sys    : t.sys = s.sys
  halted : t.halted = s.halted
  cfg    : t.cfg = s.cfg

theorem EffectKeeps.refl (s : State) : EffectKeeps s s := ⟨id, rfl, rfl, rfl, rfl⟩

theorem EffectKeeps.setReg {s t : State} (h : EffectKeeps s t) (r : Reg) (v : Word) : EffectKeeps s (t.setReg r v) := by
  obtain ⟨hinv, hlife, hsys, hhalted, hcfg⟩ := h
  exact ⟨hinv, hlife, hsys, hhalted, hcfg⟩

theorem EffectKeeps.setWord {s t : State} (h : EffectKeeps s t) (a v : Word) : EffectKeeps s (t.setWord a v) := by
  obtain ⟨hinv, hlife, hsys, hhalted, hcfg⟩ := h
  exact ⟨fun hs => State.wf_setWord t a v (hinv hs), hlife, hsys, hhalted, hcfg⟩

theorem EffectKeeps.pushed (s : State) (v : Word) : EffectKeeps s (s.pushed v) :=
  ((EffectKeeps.refl s).setWord _ v).setReg .sp _

theorem EffectKeeps.popped (s : State) (d : Reg) : EffectKeeps s (s.popped d) :=
  ((EffectKeeps.refl s).setReg d _).setReg .sp _

theorem EffectKeeps.callHandler (s : State) : EffectKeeps s (callHandler s).1 := by
  obtain ⟨hlife, hsys, hhalted, hcfg⟩ := callHandler_frame s
  exact ⟨callHandler_inv s, hlife, hsys, hhalted, hcfg⟩

/-! ## What an effect can answer -/

/-- The two answers of an effect: a next state that keeps what `EffectKeeps` says, or the fault of a 2-byte access at the
top of memory (40_cycle.md R126, 20_memory.md R55). -/
def EffectAnswers (s : State) (o : Host.Outcome State Fault Refusal) : Prop :=
  (∃ t : State, o = .next t ∧ EffectKeeps s t) ∨ (o = .fault .outOfBounds ∧ s.cfg.topWordAccess = .fault)

theorem EffectAnswers.finish {s t : State} (h : EffectKeeps s t) : EffectAnswers s (finish t) :=
  .inl ⟨_, rfl, h.setReg .ip _⟩

theorem EffectAnswers.branchIf {s t : State} (h : EffectKeeps s t) (taken : Bool) (v : Word) :
    EffectAnswers s (branchIf taken v t) := by
  cases taken with
  | false => exact .finish h
  | true => exact .finish (h.setReg .ip _)

/-- An effect that is a data access at `a` faults exactly where the access does. -/
theorem EffectAnswers.access {s : State} {a : Word} {o : Host.Outcome State Fault Refusal}
    (hfault : TopFaults s a → o = .fault .outOfBounds) (hok : ¬ TopFaults s a → EffectAnswers s o) :
    EffectAnswers s o := by
  by_cases htop : TopFaults s a
  · exact .inr ⟨hfault htop, htop.2⟩
  · exact hok htop

/-- What the effect of an instruction can answer, the instructions by the shape of their effects: writes of one register,
branches, data accesses, pushes and pops, and the system instructions. `HLT` apart, which sets the model's `halted`. -/
theorem exec_answers {i : Instr} (hi : i ≠ .hlt) (s : State) : EffectAnswers s (exec i s) := by
  have same := EffectKeeps.refl s
  cases i with
  | hlt => exact absurd rfl hi
  | nop => exact .finish same
  | neg d _ | addr d _ _ | addi d _ _ | mulr d _ _ | muli d _ _ | andr d _ _ | andi d _ _ | orr d _ _ | ori d _ _
  | xorr d _ _ | xori d _ _ | shrr d _ _ | shri d _ _ | not d _ | movr d _ | movi d _ => exact .finish (same.setReg d _)
  | jei _ _ v | jni _ _ v | jgi _ _ v | jzi _ v => exact .branchIf same _ v
  | ld d =>
    refine .access exec_ld_of_topFaults fun hok => ?_
    rw [exec_ld_of_not_topFaults hok]
    exact .finish (same.setReg d _)
  | st =>
    refine .access exec_st_of_topFaults fun hok => ?_
    rw [exec_st_of_not_topFaults hok]
    exact .finish (same.setWord _ _)
  | call v =>
    refine .access exec_call_of_topFaults fun hok => ?_
    rw [exec_call_of_not_topFaults hok]
    exact .branchIf (.pushed s _) true v
  | ret =>
    refine .access exec_ret_of_topFaults fun hok => ?_
    rw [exec_ret_of_not_topFaults hok]
    exact .inl ⟨_, rfl, (same.setReg .sp _).setReg .ip _⟩
  | pop d =>
    refine .access exec_pop_of_topFaults fun hok => ?_
    rw [exec_pop_of_not_topFaults hok]
    exact .finish (.popped s d)
  | push =>
    refine .access exec_push_of_topFaults fun hok => ?_
    rw [exec_push_of_not_topFaults hok]
    exact .finish (.pushed s _)
  | pusi v =>
    refine .access exec_pusi_of_topFaults fun hok => ?_
    rw [exec_pusi_of_not_topFaults hok]
    exact .finish (.pushed s v)
  | sys => exact .finish ((EffectKeeps.callHandler s).setReg .ra _)
  | rand => exact .inl ⟨_, rfl, id, rfl, rfl, rfl, rfl⟩

/-- The state an `HLT` leaves: `halted` is the model's own field (45_system.md R251; log entry 5). -/
def State.halt (s : State) : State := { s with halted := true }

theorem exec_hlt (s : State) : exec .hlt s = .next s.halt := rfl

/-- Everything an instruction can do once dispatched (40_cycle.md R126). -/
theorem exec_cases (i : Instr) (s : State) :
    exec i s = .next s.halt ∨ (∃ t : State, exec i s = .next t ∧ EffectKeeps s t) ∨
      (exec i s = .fault .outOfBounds ∧ s.cfg.topWordAccess = .fault) := by
  by_cases hi : i = .hlt
  · subst hi
    exact .inl (exec_hlt s)
  · exact .inr (exec_answers hi s)

/-! ## What a step can answer -/

/-- Everything a step can do (40_cycle.md R126). -/
theorem step_cases (s : State) :
    step s = .next s.halt ∨ (∃ t : State, step s = .next t ∧ EffectKeeps s t) ∨ (∃ f : Fault, step s = .fault f) := by
  obtain ⟨hip, -⟩ | ⟨hip, r, hdec, -⟩ | ⟨hip, i, hdec, -⟩ := fetchDecode_cases s
  · exact .inr (.inr ⟨_, step_of_ip_beyond hip⟩)
  · exact .inr (.inr ⟨_, step_of_reject hip hdec⟩)
  · rw [step_of_decode hip hdec]
    obtain hhalt | hnext | ⟨hfault, -⟩ := exec_cases i s
    · exact .inl hhalt
    · exact .inr (.inl hnext)
    · exact .inr (.inr ⟨_, hfault⟩)

/-- The state after a step is the one before it with `halted` set, or one that keeps what `EffectKeeps` says. -/
theorem step_next_cases {s t : State} (h : step s = .next t) : t = s.halt ∨ EffectKeeps s t := by
  obtain hhalt | ⟨u, hnext, hkeeps⟩ | ⟨f, hfault⟩ := step_cases s
  · rw [hhalt] at h
    cases h
    exact .inl rfl
  · rw [hnext] at h
    cases h
    exact .inr hkeeps
  · rw [hfault] at h
    cases h

end Sys2Proof.Machine

namespace Sys2Proof.Proofs
open Sys2Proof.Machine

/-! ## The round trip, and the invariant of memory -/

/-- Settles O1: `decode_encode`, once for the word and once for the word its four bytes make again (30_encoding.md R80,
R81, R87). -/
theorem decodeEncodeRoundTrip : Obligations.DecodeEncodeRoundTrip := by
  unfold Obligations.DecodeEncodeRoundTrip
  refine fun i => ⟨decode_encode i, _, _, _, _, rfl, ?_⟩
  rw [wordOfBytes_bytes, decode_encode]

/-- Settles O9: `HLT` does not touch memory, and every other effect keeps its canonical form (20_memory.md R50). -/
theorem stepKeepsInvariant : Obligations.StepKeepsInvariant := by
  unfold Obligations.StepKeepsInvariant
  intro s t hinv hstep
  obtain rfl | hkeeps := step_next_cases hstep
  · exact hinv
  · exact hkeeps.inv hinv

/-! ## Every instruction and every step -/

/-- Settles O8: the three cases of `exec_cases` (40_cycle.md R126, 20_memory.md R55). -/
theorem effectsFaultOnlyAtTop : Obligations.EffectsFaultOnlyAtTop := by
  unfold Obligations.EffectsFaultOnlyAtTop
  intro i s
  obtain hhalt | ⟨t, hnext, -⟩ | hfault := exec_cases i s
  · exact .inl ⟨_, hhalt⟩
  · exact .inl ⟨t, hnext⟩
  · exact .inr hfault

/-- Settles O47: `HLT` writes none of the three, and every other effect keeps them (10_state.md R29 to R31). -/
theorem stepsKeepLifeHandlerConfig : Obligations.StepsKeepLifeHandlerConfig := by
  unfold Obligations.StepsKeepLifeHandlerConfig
  intro s t hstep
  obtain rfl | hkeeps := step_next_cases hstep
  · exact ⟨rfl, rfl, rfl⟩
  · exact ⟨hkeeps.life, hkeeps.sys, hkeeps.cfg⟩

/-- Settles O6: `step_of_decode` (40_cycle.md R121, R123, R125). -/
theorem stepRunsDecodedInstruction : Obligations.StepRunsDecodedInstruction := by
  unfold Obligations.StepRunsDecodedInstruction
  exact fun _ _ => step_of_decode

/-- Settles O10: `State.reset` lists no cell (10_state.md R35). -/
theorem resetMeetsInvariant : Obligations.ResetMeetsInvariant := by
  unfold Obligations.ResetMeetsInvariant
  exact rfl

end Sys2Proof.Proofs
end

section
/-!
SUPPORT. What the decoder makes of the fields an opcode reads and of those it does not (30_encoding.md R90 to R93), and
the settling of the obligations about decoding and about the disassembler's verdict.
-/
namespace Sys2Proof

/-! ## Fields an opcode does not read -/

/-- The opcode table looks only at the operands that the shape of its row reads (30_encoding.md R90, R92). -/
theorem Instr.ofOpcode_congr {op : BitVec 8} {d a d' a' : Reg} {v v' : Word} {i : Instr}
    (h : Instr.ofOpcode op d a v = some i) (hdst : i.shape.readsDst = true → d' = d)
    (hsrc : i.shape.readsSrc = true → a' = a) (hthird : i.shape.readsThird = true → thirdReg v' = thirdReg v)
    (himm : i.shape.readsImm = true → v' = v) : Instr.ofOpcode op d' a' v' = some i := by
  unfold Instr.ofOpcode at h ⊢
  split at h <;> cases h <;>
    simp_all [Instr.shape, Shape.readsDst, Shape.readsSrc, Shape.readsThird, Shape.readsImm]

namespace Machine

/-- Decoding two words whose fields agree where the first one's instruction reads them gives the same instruction. -/
theorem decode_of_same_read_fields {w w' : BitVec 32} {i : Instr} (h : decode w = .ok i) (hgood : ¬ BadRegister w')
    (hop : (RawInstr.ofWord w').opcode = (RawInstr.ofWord w).opcode)
    (hdst : i.shape.readsDst = true → (RawInstr.ofWord w').dst = (RawInstr.ofWord w).dst)
    (hsrc : i.shape.readsSrc = true → (RawInstr.ofWord w').src = (RawInstr.ofWord w).src)
    (hthird : i.shape.readsThird = true →
      thirdReg (RawInstr.ofWord w').imm = thirdReg (RawInstr.ofWord w).imm)
    (himm : i.shape.readsImm = true → (RawInstr.ofWord w').imm = (RawInstr.ofWord w).imm) : decode w' = .ok i := by
  have hop_nat : w'.toNat % 256 = w.toNat % 256 := by
    rw [← RawInstr.ofWord_opcode_toNat, hop, RawInstr.ofWord_opcode_toNat]
  obtain ⟨-, herr⟩ | ⟨-, -, herr⟩ | ⟨-, hknown, d, a, j, hd, ha, htable, hok⟩ := decode_cases w
  · rw [h] at herr; cases herr
  · rw [h] at herr; cases herr
  obtain ⟨hbad, -⟩ | ⟨-, hunknown, -⟩ | ⟨-, -, d', a', j', hd', ha', htable', hok'⟩ := decode_cases w'
  · exact absurd hbad hgood
  · omega
  rw [hok] at h
  cases h
  have hdst_reg : i.shape.readsDst = true → d' = d := fun hr => by rwa [hdst hr, hd, Option.some_inj, eq_comm] at hd'
  have hsrc_reg : i.shape.readsSrc = true → a' = a := fun hr => by rwa [hsrc hr, ha, Option.some_inj, eq_comm] at ha'
  have hsame := Instr.ofOpcode_congr htable hdst_reg hsrc_reg hthird himm
  rw [hop, hsame] at htable'
  cases htable'
  exact hok'

/-! ## The disassembler's verdict -/

theorem disasm_of_reject {p : DisasmParams} {a : Word} {w : BitVec 32} {r : Reject} (h : decode w = .error r) :
    disasm p a w = (p.placeholder, false) := by
  rw [disasm, h]

theorem disasm_of_decode {p : DisasmParams} {a : Word} {w : BitVec 32} {i : Instr} (h : decode w = .ok i) :
    disasm p a w = (render p a i, true) := by
  rw [disasm, h]

end Machine
end Sys2Proof

namespace Sys2Proof.Proofs
open Sys2Proof.Machine

/-- Settles O4: the read fields fix the instruction, the third register through `thirdReg_congr`, and a bad register
field decides before the opcode is looked at (30_encoding.md R92, R93). -/
theorem unreadFieldsIgnored : Obligations.UnreadFieldsIgnored := by
  unfold Obligations.UnreadFieldsIgnored
  refine ⟨fun w w' i h hgood hop hdst hsrc hthird himm => ?_, fun w => decode_of_badRegister⟩
  exact decode_of_same_read_fields h hgood hop hdst hsrc (fun hr => thirdReg_congr (hthird hr)) himm

/-- Settles O59: the disassembler answers by the decoder's verdict, in each of the cases of `decode_cases`
(46_disassembler.md R281). -/
theorem disassemblyFollowsDecoder : Obligations.DisassemblyFollowsDecoder := by
  unfold Obligations.DisassemblyFollowsDecoder
  intro p a w
  obtain ⟨hbad, hdec⟩ | ⟨-, hop, hdec⟩ | ⟨hgood, hop, _, _, i, -, -, -, hdec⟩ := decode_cases w
  · rw [disasm_of_reject hdec]
    exact ⟨⟨nofun, fun h => absurd hbad h.1⟩, fun _ => rfl⟩
  · rw [disasm_of_reject hdec]
    exact ⟨⟨nofun, fun h => absurd h.2 (Nat.not_le.2 hop)⟩, fun _ => rfl⟩
  · rw [disasm_of_decode hdec]
    exact ⟨⟨fun _ => ⟨hgood, hop⟩, fun _ => rfl⟩, nofun⟩

/-- Settles O5: each word evaluates to the instruction of its row (95_test_vectors.md 2.2 to 2.7). -/
theorem sampleWordsDecode : Obligations.SampleWordsDecode := by
  unfold Obligations.SampleWordsDecode
  exact ⟨rfl, rfl, rfl, rfl, rfl, rfl, rfl, rfl⟩

end Sys2Proof.Proofs
end

section
/-!
SUPPORT. `NEG` and the shifts (41_alu.md R140, R151 to R153): the equations of the three, the shift function in
arithmetic, and the settling of the obligations about them.
-/
namespace Sys2Proof.Machine

section Effects

variable (d a b : Reg) (v : Word) (s : State)

@[simp] theorem exec_neg : exec (.neg d a) s = finish (s.setReg d (0 - s.reg a)) := rfl
@[simp] theorem exec_shrr : exec (.shrr d a b) s = finish (s.setReg d (shift (s.reg a) (s.reg b))) := rfl
@[simp] theorem exec_shri : exec (.shri d a v) s = finish (s.setReg d (shift (s.reg a) v)) := rfl

end Effects

/-- A left shift multiplies by a power of two and drops the high bits, a right shift divides by it (41_alu.md R151). -/
theorem toNat_shift (v amt : Word) : (shift v amt).toNat =
    if amt.getLsbD 3 = true then v.toNat * 2 ^ (amt.toNat % 8) % 65536 else v.toNat / 2 ^ (amt.toNat % 8) := by
  unfold shift
  split
  · rw [BitVec.toNat_shiftLeft, Nat.shiftLeft_eq]
  · rw [BitVec.toNat_ushiftRight, Nat.shiftRight_eq_div_pow]

/-- An instruction whose one write is a shift. -/
theorem exec_next_writesReg_shift {i : Instr} {s : State} {d : Reg} {x amt : Word}
    (h : exec i s = finish (s.setReg d (shift x amt))) : ∃ t, exec i s = .next t ∧
      ∃ p : Word, p.toNat = (if amt.getLsbD 3 = true then x.toNat * 2 ^ (amt.toNat % 8) % 65536
        else x.toNat / 2 ^ (amt.toNat % 8)) ∧ WritesReg s d p t := by
  obtain ⟨t, ht, hw⟩ := exec_next_writesReg h
  exact ⟨t, ht, shift x amt, toNat_shift x amt, hw⟩

end Sys2Proof.Machine

namespace Sys2Proof.Proofs
open Sys2Proof.Machine

/-- Settles O13: row 0x01 of the opcode table, and the one write of `exec_neg` (41_alu.md R140). -/
theorem negNegates : Obligations.NegNegates := by
  unfold Obligations.NegNegates
  exact ⟨fun _ _ _ => decode_wordOf_eq_ok rfl, fun d a s => exec_next_writesReg (exec_neg d a s)⟩

/-- Settles O24: row 0x0C of the opcode table, and the shift `exec_shrr` writes (41_alu.md R151, R152). -/
theorem shrrShifts : Obligations.ShrrShifts := by
  unfold Obligations.ShrrShifts
  exact ⟨fun _ _ _ => decode_wordOf_eq_ok rfl, fun d a b s => exec_next_writesReg_shift (exec_shrr d a b s)⟩

/-- Settles O25: row 0x0D of the opcode table, and the shift `exec_shri` writes (41_alu.md R151, R153). -/
theorem shriShifts : Obligations.ShriShifts := by
  unfold Obligations.ShriShifts
  exact ⟨fun _ _ _ => decode_wordOf_eq_ok rfl, fun d a v s => exec_next_writesReg_shift (exec_shri d a v s)⟩

end Sys2Proof.Proofs
end

section
/-!
SUPPORT. The `execute` operation (40_cycle.md R127 to R131): the loop as a relation, `Runs`, with one rule for each
branch, and the settling of the obligations about runs. A run that ended starts again from the very state it stood at
(`Running.begin_sleep`): that it can go on, and that a halt and a fault repeat, rests on that.
-/
namespace Sys2Proof.Machine

/-! ## The state inside a run -/

/-- The state of a VM between two steps of a run (40_cycle.md R127; log entry 5). -/
structure Running (s : State) : Prop where
  life   : s.life = .executing
  halted : s.halted = false

theorem running_begin (s : State) : Running s.begin := ⟨rfl, rfl⟩

/-- A step that does not halt stays inside the run. -/
theorem Running.of_step {s t : State} (hs : Running s) (h : step s = .next t) (ht : t.halted = false) : Running t := by
  obtain rfl | hkeeps := step_next_cases h
  · cases ht
  · exact ⟨hkeeps.life.trans hs.life, ht⟩

/-- Only `HLT` halts a run (45_system.md R251). -/
theorem Running.eq_halt_of_step {s t : State} (hs : Running s) (h : step s = .next t) (ht : t.halted = true) :
    t = s.halt := by
  obtain heq | hkeeps := step_next_cases h
  · exact heq
  · rw [hkeeps.halted, hs.halted] at ht
    cases ht

/-- Ending a run and starting the next one leads back to the state inside the run. -/
theorem Running.begin_sleep {s : State} (hs : Running s) : s.sleep.begin = s := by
  obtain ⟨hlife, hhalted⟩ := hs
  cases s
  cases hlife
  cases hhalted
  rfl

/-- The same after a halt: the start of a run clears the `halted` that the `HLT` set (log entry 5). -/
theorem Running.begin_sleep_halt {s : State} (hs : Running s) : s.halt.sleep.begin = s := hs.begin_sleep

/-! ## The loop as a relation -/

/-- What one turn of the loop makes of a step: the run halts, goes on or faults (40_cycle.md R126, R127). -/
theorem step_turns (s : State) :
    (∃ t, step s = .next t ∧ t.halted = true) ∨ (∃ t, step s = .next t ∧ t.halted = false) ∨
      ∃ f, step s = .fault f := by
  obtain hnext | ⟨t, hnext, -⟩ | hfault := step_cases s
  · exact .inl ⟨_, hnext, rfl⟩
  · cases ht : t.halted with
    | true => exact .inl ⟨t, hnext, ht⟩
    | false => exact .inr (.inl ⟨t, hnext, ht⟩)
  · exact .inr (.inr hfault)

/-- `Runs fuel count s r u`: within `fuel` steps the loop, with `count` left of the budget at `s`, returns the reason `r`
and leaves `u` (40_cycle.md R127). -/
inductive Runs : Nat → Int → State → StopReason → State → Prop where
  | budget (fuel : Nat) (s : State) : Runs fuel 0 s .budgetExhausted s.sleep
  | halt {fuel : Nat} {count : Int} {s t : State} (hcount : count ≠ 0) (hstep : step s = .next t)
      (hhalted : t.halted = true) : Runs (fuel + 1) count s .halt t.sleep
  | next {fuel : Nat} {count : Int} {s t u : State} {r : StopReason} (hcount : count ≠ 0) (hstep : step s = .next t)
      (hhalted : t.halted = false) (hrest : Runs fuel (nextCount count) t r u) : Runs (fuel + 1) count s r u
  | fault {fuel : Nat} {count : Int} {s : State} {f : Fault} (hcount : count ≠ 0) (hstep : step s = .fault f) :
      Runs (fuel + 1) count s (StopReason.ofFault f) s.sleep

theorem executeLoop_zero (fuel : Nat) (s : State) : executeLoop fuel 0 s = some (.budgetExhausted, s.sleep) := by
  cases fuel <;> rfl

theorem executeLoop_eq_of_runs {fuel : Nat} {count : Int} {s u : State} {r : StopReason}
    (h : Runs fuel count s r u) : executeLoop fuel count s = some (r, u) := by
  induction h with
  | budget fuel s => exact executeLoop_zero fuel s
  | halt hcount hstep hhalted => simp [executeLoop, hcount, hstep, hhalted]
  | next hcount hstep hhalted _ ih => simp [executeLoop, hcount, hstep, hhalted, ih]
  | fault hcount hstep => simp [executeLoop, hcount, hstep]

theorem runs_of_executeLoop_eq {fuel : Nat} : ∀ {count : Int} {s u : State} {r : StopReason},
    executeLoop fuel count s = some (r, u) → Runs fuel count s r u := by
  induction fuel with
  | zero =>
    intro count s u r h
    by_cases hcount : count = 0
    · subst hcount
      cases h
      exact .budget 0 s
    · rw [executeLoop, if_neg hcount] at h
      cases h
  | succ fuel ih =>
    intro count s u r h
    by_cases hcount : count = 0
    · subst hcount
      cases h
      exact .budget _ s
    rw [executeLoop, if_neg hcount] at h
    obtain ⟨t, hstep, hhalted⟩ | ⟨t, hstep, hhalted⟩ | ⟨f, hstep⟩ := step_turns s
    · simp only [hstep, hhalted, if_true] at h
      cases h
      exact .halt hcount hstep hhalted
    · simp only [hstep, hhalted, Bool.false_eq_true, if_false] at h
      exact .next hcount hstep hhalted (ih h)
    · simp only [hstep] at h
      cases h
      exact .fault hcount hstep

theorem executeLoop_eq_some_iff {fuel : Nat} {count : Int} {s u : State} {r : StopReason} :
    executeLoop fuel count s = some (r, u) ↔ Runs fuel count s r u :=
  ⟨runs_of_executeLoop_eq, executeLoop_eq_of_runs⟩

/-! ## The reason a fault is reported as -/

theorem StopReason.ofFault_ne_invalidState (f : Fault) : StopReason.ofFault f ≠ .invalidState := by cases f <;> nofun

theorem StopReason.ofFault_ne_budgetExhausted (f : Fault) : StopReason.ofFault f ≠ .budgetExhausted := by
  cases f <;> nofun

/-! ## Budgets and fuel -/

theorem nextCount_succ (n : Nat) : nextCount ((n + 1 : Nat) : Int) = n := by
  unfold nextCount
  split <;> omega

/-- A budget of `n` ends the run within `n` steps (60_exceptions.md R364). -/
theorem exists_runs_of_le {fuel : Nat} : ∀ {n : Nat} {s : State}, n ≤ fuel → ∃ r u, Runs fuel n s r u := by
  induction fuel with
  | zero =>
    intro n s hn
    obtain rfl : n = 0 := Nat.le_zero.1 hn
    exact ⟨_, _, .budget 0 s⟩
  | succ fuel ih =>
    intro n s hn
    obtain _ | n := n
    · exact ⟨_, _, .budget _ s⟩
    have hcount : ((n + 1 : Nat) : Int) ≠ 0 := by omega
    obtain ⟨t, hstep, hhalted⟩ | ⟨t, hstep, hhalted⟩ | ⟨f, hstep⟩ := step_turns s
    · exact ⟨_, _, .halt hcount hstep hhalted⟩
    · obtain ⟨r, u, hrest⟩ := ih (s := t) (Nat.le_of_succ_le_succ hn)
      exact ⟨r, u, .next hcount hstep hhalted (by rwa [nextCount_succ])⟩
    · exact ⟨_, _, .fault hcount hstep⟩

/-- More fuel does not change what a run returns (log entry 12). -/
theorem Runs.add_fuel {fuel : Nat} {count : Int} {s u : State} {r : StopReason} (h : Runs fuel count s r u)
    (more : Nat) : Runs (fuel + more) count s r u := by
  induction h with
  | budget fuel s => exact .budget _ s
  | halt hcount hstep hhalted => rw [Nat.succ_add]; exact .halt hcount hstep hhalted
  | next hcount hstep hhalted _ ih => rw [Nat.succ_add]; exact .next hcount hstep hhalted ih
  | fault hcount hstep => rw [Nat.succ_add]; exact .fault hcount hstep

/-- The budgets of a run that used its own up and of the run that goes on from there add up (40_cycle.md R127). -/
theorem Runs.resume {fuel more : Nat} {count : Int} {n : Nat} {s t u : State} {r₀ r : StopReason}
    (h : Runs fuel count s r₀ t) (hr₀ : r₀ = .budgetExhausted) (hs : Running s) (hpos : 0 ≤ count)
    (hrest : Runs more n t.begin r u) : Runs (fuel + more) (count + n) s r u := by
  induction h with
  | budget fuel s =>
    rw [hs.begin_sleep] at hrest
    rw [Int.zero_add, Nat.add_comm]
    exact hrest.add_fuel fuel
  | halt => cases hr₀
  | @next fuel count s v _ _ hcount hstep hhalted _ ih =>
    have hleft : nextCount count = count - 1 := if_pos (by omega)
    have hsum : nextCount (count + n) = nextCount count + n := by rw [nextCount, if_pos (by omega)]; omega
    rw [Nat.succ_add]
    refine .next (by omega) hstep hhalted ?_
    rw [hsum]
    exact ih hr₀ (hs.of_step hstep hhalted) (by omega) hrest
  | fault => exact absurd hr₀ (StopReason.ofFault_ne_budgetExhausted _)

/-! ## The end of a run -/

theorem Runs.life_eq_sleeping {fuel : Nat} {count : Int} {s t : State} {r : StopReason} (h : Runs fuel count s r t) :
    t.life = .sleeping := by
  induction h with
  | budget | halt | fault => rfl
  | next _ _ _ _ ih => exact ih

theorem Runs.reason_cases {fuel : Nat} {count : Int} {s t : State} {r : StopReason} (h : Runs fuel count s r t) :
    r = .budgetExhausted ∨ r = .halt ∨ ∃ f, r = StopReason.ofFault f := by
  induction h with
  | budget => exact .inl rfl
  | halt => exact .inr (.inl rfl)
  | next _ _ _ _ ih => exact ih
  | fault => exact .inr (.inr ⟨_, rfl⟩)

/-- A run that its budget did not stop stands at a halt or a fault, and a further run meets it at once (40_cycle.md R129,
R130). -/
theorem Runs.repeats {fuel : Nat} {count : Int} {s t : State} {r : StopReason} (h : Runs fuel count s r t)
    (hs : Running s) (hr : r ≠ .budgetExhausted) (more : Nat) {again : Int} (hagain : again ≠ 0) :
    Runs (more + 1) again t.begin r t := by
  induction h with
  | budget => exact absurd rfl hr
  | halt _ hstep hhalted =>
    obtain rfl := hs.eq_halt_of_step hstep hhalted
    rw [hs.begin_sleep_halt]
    exact .halt hagain hstep rfl
  | next _ hstep hhalted _ ih => exact ih (hs.of_step hstep hhalted) hr
  | fault _ hstep =>
    rw [hs.begin_sleep]
    exact .fault hagain hstep

/-! ## `execute` -/

theorem execute_of_not_sleeping {s : State} (h : s.life ≠ .sleeping) (fuel : Nat) (count : Int) :
    execute fuel count s = some (.invalidState, s) := if_pos h

theorem execute_of_sleeping {s : State} (h : s.life = .sleeping) (fuel : Nat) (count : Int) :
    execute fuel count s = executeLoop fuel count s.begin := if_neg (not_not.2 h)

/-- Everything `execute` can return (40_cycle.md R127, R128). -/
theorem execute_eq_some_iff {fuel : Nat} {count : Int} {s t : State} {r : StopReason} :
    execute fuel count s = some (r, t) ↔
      (s.life ≠ .sleeping ∧ r = .invalidState ∧ t = s) ∨ (s.life = .sleeping ∧ Runs fuel count s.begin r t) := by
  by_cases h : s.life = .sleeping
  · simp [execute_of_sleeping h, executeLoop_eq_some_iff, h]
  · simp [execute_of_not_sleeping h, h, eq_comm]

/-- `execute` that returned another reason than `InvalidState` ran, and stands where the run ended. -/
theorem runs_of_execute {fuel : Nat} {count : Int} {s t : State} {r : StopReason}
    (h : execute fuel count s = some (r, t)) (hr : r ≠ .invalidState) :
    s.life = .sleeping ∧ Runs fuel count s.begin r t := by
  obtain ⟨-, hinvalid, -⟩ | hruns := execute_eq_some_iff.1 h
  · exact absurd hinvalid hr
  · exact hruns

/-- `Runs.repeats`, for `execute`. -/
theorem execute_repeats {fuel : Nat} {count again : Int} {s t : State} {r : StopReason}
    (h : execute fuel count s = some (r, t)) (hran : r ≠ .invalidState) (hr : r ≠ .budgetExhausted) (more : Nat)
    (hagain : again ≠ 0) : execute (more + 1) again t = some (r, t) := by
  obtain ⟨-, hruns⟩ := runs_of_execute h hran
  exact execute_eq_some_iff.2 (.inr ⟨hruns.life_eq_sleeping, hruns.repeats (running_begin s) hr more hagain⟩)

end Sys2Proof.Machine

namespace Sys2Proof.Proofs
open Sys2Proof.Machine

/-- Settles O50: a run within its budget returns, and a run ends by its budget, a halt or a fault (40_cycle.md R127,
R131). -/
theorem executeReturnsWithinBudget : Obligations.ExecuteReturnsWithinBudget := by
  unfold Obligations.ExecuteReturnsWithinBudget
  intro n fuel s hlife hn
  obtain ⟨r, t, hruns⟩ := exists_runs_of_le (s := s.begin) hn
  refine ⟨r, t, execute_eq_some_iff.2 (.inr ⟨hlife, hruns⟩), hruns.life_eq_sleeping, ?_⟩
  obtain rfl | rfl | ⟨f, rfl⟩ := hruns.reason_cases
  · exact .inr (.inl rfl)
  · exact .inl rfl
  · cases f <;> simp [StopReason.ofFault]

/-- Settles O51: `Runs.add_fuel`; a call that does not run answers whatever the fuel (log entry 12). -/
theorem executeAnswerIsStable : Obligations.ExecuteAnswerIsStable := by
  unfold Obligations.ExecuteAnswerIsStable
  intro fuel more count s r t h
  rw [execute_eq_some_iff] at h ⊢
  exact h.imp_right fun ⟨hlife, hruns⟩ => ⟨hlife, hruns.add_fuel more⟩

/-- Settles O52: the second run starts inside the first one's state, so `Runs.resume` joins them (40_cycle.md R127). -/
theorem budgetExhaustedIsAPause : Obligations.BudgetExhaustedIsAPause := by
  unfold Obligations.BudgetExhaustedIsAPause
  intro m n fuel more s t u r hfirst hsecond
  obtain ⟨hlife, hruns⟩ := runs_of_execute hfirst nofun
  rw [execute_of_sleeping hruns.life_eq_sleeping, executeLoop_eq_some_iff] at hsecond
  exact execute_eq_some_iff.2 (.inr ⟨hlife, hruns.resume rfl (running_begin s) (Int.natCast_nonneg m) hsecond⟩)

/-- Settles O53: a halt is neither of the reasons that `execute_repeats` excludes (40_cycle.md R130). -/
theorem haltRepeats : Obligations.HaltRepeats := by
  unfold Obligations.HaltRepeats
  exact fun _ more _ _ _ _ h hagain => execute_repeats h nofun nofun more hagain

/-- Settles O54: nor is a fault (40_cycle.md R129). -/
theorem faultRepeats : Obligations.FaultRepeats := by
  unfold Obligations.FaultRepeats
  exact fun _ more _ _ _ _ f h hagain => execute_repeats h (StopReason.ofFault_ne_invalidState f)
    (StopReason.ofFault_ne_budgetExhausted f) more hagain

end Sys2Proof.Proofs
end

section
/-!
SUPPORT. The system instructions (45_system.md R250 to R261): `HLT` as the end of a run, the handlers case by case, the
generator in arithmetic, and the settling of the obligations about them.
-/
namespace Sys2Proof.Machine

/-! ## Another PRNG state -/

/-- The state with this PRNG state in place of its own. -/
def State.withPrng (s : State) (p : BitVec 64) : State := { s with prng := p }

@[simp] theorem State.withPrng_prng (s : State) (p : BitVec 64) : (s.withPrng p).prng = p := rfl

/-! ## The effects -/

@[simp] theorem exec_nop (s : State) : exec .nop s = finish s := rfl

@[simp] theorem exec_sys (s : State) : exec .sys s = finish ((callHandler s).1.setReg .ra (callHandler s).2) := rfl

@[simp] theorem exec_rand (s : State) : exec .rand s =
    finish ((s.withPrng (prngNext s.prng)).setReg .ra ((prngOutput (prngNext s.prng)).extractLsb' 0 16)) := rfl

theorem sameMemory_of_mem_eq {s t : State} (h : t.mem = s.mem) : SameMemory s t := fun a => by
  rw [State.byte, h, State.byte]

/-- An instruction that writes a result to `RA` and ends (45_system.md R256, R260). -/
theorem finish_setReg_ra (s : State) (v : Word) : ∃ t, finish (s.setReg .ra v) = .next t ∧ t.reg .ra = v ∧
    (∀ q : Reg, q ≠ .ra → t.reg q = if q = .ip then s.reg .ip + 4 else s.reg q) ∧ t.mem = s.mem ∧ SameControl s t := by
  refine ⟨_, rfl, rfl, fun q hq => ?_, rfl, rfl, rfl, rfl, rfl, rfl, rfl⟩
  rw [State.reg_advance, State.reg_setReg_ne s .ra .ip v (by decide), State.reg_setReg_ne s .ra q v hq]

/-! ## A run at an `HLT` -/

/-- The start of a run leaves registers and memory alone, so the step fetches the `HLT` at `IP` (40_cycle.md R127). -/
theorem execute_at_hlt {s : State} (fuel : Nat) {count : Int} (hlife : s.life = .sleeping) (hcount : count ≠ 0)
    (hip : (s.reg .ip).toNat ≤ 0xFFFC) (hd : decode (wordAtIp s) = .ok .hlt) :
    execute (fuel + 1) count s = some (.halt, s.begin.halt.sleep) := by
  have hstep : step s.begin = .next s.begin.halt := step_of_decode (s := s.begin) hip hd
  exact execute_eq_some_iff.2 (.inr ⟨hlife, .halt hcount hstep rfl⟩)

/-! ## The handlers -/

theorem callHandler_default {s : State} (h : s.sys = .default) : callHandler s = defaultHandler s := by
  rw [callHandler, h]

theorem callHandler_registered {s : State} {n : Nat} (h : s.sys = .registered n) : callHandler s =
    (s.withContext (Config.syscallHandler n s.context).1, (Config.syscallHandler n s.context).2) := by
  rw [callHandler, h]

theorem defaultHandler_reg (s : State) (q : Reg) : (defaultHandler s).1.reg q = s.reg q := by
  obtain ⟨hregs, -⟩ := defaultHandler_frame s
  rw [State.reg, hregs, State.reg]

/-- A read takes the oldest outcome the host supplied, or draws one (D14). -/
theorem StdIo.nextRead_eq (io : StdIo) : io.nextRead = (readOutcome io,
    { io with stdin := io.stdin.tail, reads := if io.stdin = [] then io.reads + 1 else io.reads }) := by
  obtain ⟨stdin, reads, writeResults, writes, stdout⟩ := io
  cases stdin <;> rfl

/-- A write takes the oldest outcome the host supplied, or draws one (D14). -/
theorem StdIo.nextWrite_eq (io : StdIo) : io.nextWrite = (writeOutcome io,
    { io with writeResults := io.writeResults.tail,
              writes := if io.writeResults = [] then io.writes + 1 else io.writes }) := by
  obtain ⟨stdin, reads, writeResults, writes, stdout⟩ := io
  cases writeResults <;> rfl

theorem defaultHandler_read {s : State} (h : s.reg .ra = 0) :
    defaultHandler s = ({ s with io := s.io.nextRead.2 }, readResult s.io.nextRead.1) := if_pos h

theorem defaultHandler_write {s : State} (h : s.reg .ra = 1) : defaultHandler s =
    ({ s with io := { s.io.nextWrite.2 with
        stdout := s.io.stdout ++ delivered (lowByte (s.reg .r1)) s.io.nextWrite.1 } },
      writeResult s.io.nextWrite.1) := by
  rw [defaultHandler, if_neg (by rw [h]; decide), if_pos h]

theorem defaultHandler_other {s : State} (h0 : s.reg .ra ≠ 0) (h1 : s.reg .ra ≠ 1) : defaultHandler s = (s, 0) := by
  rw [defaultHandler, if_neg h0, if_neg h1]

theorem toNat_readResult_byte (b : Byte) : (readResult (.byte b)).toNat = b.toNat :=
  BitVec.toNat_setWidth_of_le (by decide)

/-! ## The generator -/

/-- `RAND` takes the low 16 bits of the output (45_system.md R260, R261). -/
theorem toNat_low_prngOutput (x : BitVec 64) :
    ((prngOutput x).extractLsb' 0 16).toNat = x.toNat * 2685821657736338717 % 2 ^ 64 % 2 ^ 16 := by
  rw [BitVec.extractLsb'_toNat, Nat.shiftRight_zero, prngOutput, BitVec.toNat_mul, BitVec.toNat_ofNat, Nat.mul_comm]

end Sys2Proof.Machine

namespace Sys2Proof.Proofs
open Sys2Proof.Machine

/-- Settles O40: row 0x00 of the opcode table, the register check on the unread fields, and the trailing increment alone
(45_system.md R250). -/
theorem nopOnlyAdvances : Obligations.NopOnlyAdvances := by
  unfold Obligations.NopOnlyAdvances
  refine ⟨fun _ _ _ => decode_wordOf_eq_ok rfl, fieldsChecked _, fun s => ?_⟩
  rw [exec_nop]
  exact finish_movesTo s

/-- Settles O41: row 0x11 of the opcode table, the register check on the unread fields, `State.halt`, and the run that
meets it (45_system.md R251). -/
theorem hltStopsTheRun : Obligations.HltStopsTheRun := by
  unfold Obligations.HltStopsTheRun
  refine ⟨fun _ _ _ => decode_wordOf_eq_ok rfl, fieldsChecked _, fun s => ?_, fun s fuel count hlife hcount hip hd => ?_⟩
  · exact ⟨_, exec_hlt s, rfl, fun _ => rfl, fun _ => rfl, rfl, rfl, rfl, rfl, rfl⟩
  · exact ⟨_, execute_at_hlt fuel hlife hcount hip hd, rfl, fun _ => rfl, fun _ => rfl, rfl, rfl, rfl⟩

/-- Settles O42: row 0x1D of the opcode table, the register check on the unread fields, the frame of the default handler,
and its three cases with the outcome each takes (45_system.md R256 to R258). -/
theorem sysDefaultHandler : Obligations.SysDefaultHandler := by
  unfold Obligations.SysDefaultHandler
  refine ⟨fun _ _ _ => decode_wordOf_eq_ok rfl, fieldsChecked _, fun s hdefault => ?_⟩
  obtain ⟨-, hmem, hprng, hlife, hsys, hhalted, hcfg⟩ := defaultHandler_frame s
  obtain ⟨t, ht, hra, hreg, htmem, htprng, htlife, htsys, htio, hthalted, htcfg⟩ :=
    finish_setReg_ra (defaultHandler s).1 (defaultHandler s).2
  simp only [defaultHandler_reg] at hreg
  rw [exec_sys, callHandler_default hdefault]
  refine ⟨t, ht, hreg, sameMemory_of_mem_eq (htmem.trans hmem), htprng.trans hprng, htlife.trans hlife,
    htsys.trans hsys, hthalted.trans hhalted, htcfg.trans hcfg, fun h0 => ?read, fun h1 => ?write, fun h0 h1 => ?other⟩
  case read =>
    rw [defaultHandler_read h0, StdIo.nextRead_eq] at htio hra
    rw [htio, hra]
    refine ⟨rfl, rfl, rfl, rfl, fun h => if_neg h, fun h => if_pos h, fun b hb => ?_, fun hf => ?_⟩
    · rw [hb, toNat_readResult_byte]
    · rw [hf, readResult]
  case write =>
    rw [defaultHandler_write h1, StdIo.nextWrite_eq] at htio hra
    rw [htio, hra]
    refine ⟨rfl, rfl, rfl, fun h => if_neg h, fun h => if_pos h, fun hok => ?_, fun hf => ?_⟩
    · rw [hok]
      exact ⟨rfl, rfl⟩
    · rw [hf]
      exact ⟨rfl, List.append_nil _⟩
  case other =>
    rw [defaultHandler_other h0 h1] at htio hra
    exact ⟨hra, htio⟩

/-- Settles O43: `canon` makes a canonical memory and leaves one alone, and the handler's context with its result in `RA`
is what the trailing increment then advances (45_system.md R252, R253, R256). -/
theorem sysRegisteredHandler : Obligations.SysRegisteredHandler := by
  unfold Obligations.SysRegisteredHandler
  refine ⟨fun m => ⟨Memory.wf_canon m, Memory.canon_of_wf m⟩, fun n s hsys => ?_⟩
  rcases hreturned : Config.syscallHandler n s.context with ⟨c, r⟩
  obtain ⟨t, ht, hra, hreg, hmem, hprng, hlife, htsys, hio, hhalted, hcfg⟩ := finish_setReg_ra (s.withContext c) r
  rw [exec_sys, callHandler_registered hsys, hreturned]
  refine ⟨t, c, r, hreturned, ht, fun q => ?_, hprng, hmem, hlife, htsys, hio, hhalted, hcfg⟩
  by_cases hq : q = .ra
  · rw [if_pos hq, hq, hra]
  · rw [if_neg hq, hreg q hq]
    rfl

/-- Settles O44: row 0x1E of the opcode table, the register check on the unread fields, and the output of the generator's
new state in `RA` (45_system.md R260, R261). -/
theorem randDrawsFromGenerator : Obligations.RandDrawsFromGenerator := by
  unfold Obligations.RandDrawsFromGenerator
  refine ⟨fun _ _ _ => decode_wordOf_eq_ok rfl, fieldsChecked _, fun s => ?_⟩
  obtain ⟨t, ht, hra, hreg, hmem, hprng, hlife, hsys, hio, hhalted, hcfg⟩ :=
    finish_setReg_ra (s.withPrng (prngNext s.prng)) ((prngOutput (prngNext s.prng)).extractLsb' 0 16)
  rw [exec_rand]
  refine ⟨t, _, _, ht, rfl, rfl, hprng, ?_, hreg, sameMemory_of_mem_eq hmem, hlife, hsys, hio, hhalted, hcfg⟩
  rw [hra, toNat_low_prngOutput, hprng, State.withPrng_prng]

end Sys2Proof.Proofs
end

section
/-!
SUPPORT. A push and the pop that follows it (43_control.md R205 to R207, 44_stack.md R230 to R232), and the settling of
the obligations about the two pairs of instructions.
-/
namespace Sys2Proof.Machine

/-- Where the push did not fault, the pop that follows it does not, and finds the value pushed. -/
theorem top_of_stack_after_push {s t : State} {v : Word} (hok : ¬ TopFaults s (s.reg .sp - 2))
    (hstores : StoresWord s (s.reg .sp - 2) v t) (hcontrol : SameControl s t) (hsp : t.reg .sp = s.reg .sp - 2) :
    ¬ TopFaults t (t.reg .sp) ∧ wordAt t (t.reg .sp) = v := by
  obtain ⟨-, -, -, -, -, hcfg⟩ := hcontrol
  rw [hsp, TopFaults, hcfg]
  exact ⟨hok, hstores.wordAt_eq⟩

theorem word_sub_two_add_two (a : Word) : a - 2 + 2 = a := by bv_omega

/-- A pop into another register than `SP` and `IP`, as `exec` leaves it (44_stack.md R231). -/
theorem reg_advance_popped {s : State} {d : Reg} (hsp : d ≠ .sp) (hip : d ≠ .ip) (q : Reg) :
    (s.popped d).advance.reg q = if q = .ip then s.reg .ip + 4 else if q = .sp then s.reg .sp + 2
      else if q = d then wordAt s (s.reg .sp) else s.reg q := by
  rw [State.reg_advance, State.popped_ip, State.reg_popped, State.spAfterPop, if_neg hsp, if_neg hip]

end Sys2Proof.Machine

namespace Sys2Proof.Proofs
open Sys2Proof.Machine

/-- Settles O45: `RET` pops what `CALL` pushed, so the two moves of `SP` undo each other (43_control.md R207). -/
theorem callThenRetReturns : Obligations.CallThenRetReturns := by
  unfold Obligations.CallThenRetReturns
  intro v s hinv hok
  obtain ⟨t, ht, hstores, hcontrol, hreg⟩ := branchIf_true_pushed hinv v (s.reg .ip + 4)
  obtain ⟨htop, hword⟩ := top_of_stack_after_push hok hstores hcontrol (hreg .sp)
  refine ⟨t, _, (exec_call_of_not_topFaults hok).trans ht, exec_ret_of_not_topFaults htop, ?_, fun q hq => ?_,
    hcontrol.trans ⟨rfl, rfl, rfl, rfl, rfl, rfl⟩⟩
  · rw [State.reg_setReg_self, hword]
  · rw [State.reg_setReg_ne _ _ _ _ hq, State.reg_setReg, hreg .sp, hreg q, if_neg hq]
    by_cases hsp : q = .sp
    · rw [if_pos hsp, hsp]
      exact word_sub_two_add_two _
    · rw [if_neg hsp, if_neg hsp]

/-- Settles O46: the value pushed is what `d` held, and the pop finds it (44_stack.md R230 to R232). -/
theorem pushThenPopRestores : Obligations.PushThenPopRestores := by
  unfold Obligations.PushThenPopRestores
  intro d e s hinv hok hd he_sp he_ip
  obtain ⟨t, ht, hstores, hcontrol, hreg⟩ := finish_pushed hinv (s.pushOperand d)
  obtain ⟨htop, hword⟩ := top_of_stack_after_push hok hstores hcontrol (hreg .sp)
  have hpopped := reg_advance_popped (s := t) he_sp he_ip
  rw [hword, State.pushOperand_eq, if_neg hd] at hpopped
  have hsp : (t.popped e).advance.reg .sp = s.reg .sp := by
    rw [hpopped, if_neg (by decide), if_pos rfl, hreg]
    exact word_sub_two_add_two _
  refine ⟨t, _, (exec_push_of_not_topFaults hok).trans ht, exec_pop_of_not_topFaults htop, ?_, hsp, ?_,
    fun q hqe hq_ip => ?_, hcontrol.trans ⟨rfl, rfl, rfl, rfl, rfl, rfl⟩⟩
  · rw [hpopped, if_neg he_ip, if_neg he_sp, if_pos rfl]
  · rw [hpopped, if_pos rfl, hreg, if_pos rfl, BitVec.add_assoc]
    rfl
  · by_cases hq_sp : q = .sp
    · rw [hq_sp, hsp]
    · rw [hpopped, if_neg hq_ip, if_neg hq_sp, if_neg hqe, hreg, if_neg hq_ip, if_neg hq_sp]

end Sys2Proof.Proofs
end

section
/-!
SUPPORT. What an instruction does under another PRNG state (10_state.md R27, 45_system.md R253): putting one in place
before the effect is putting it in place after it (`exec_withPrng`); and the settling of the obligation about it.
-/
namespace Sys2Proof.Machine

/-- An outcome with this PRNG state in its next state. -/
def outcomeWithPrng (p : BitVec 64) : Host.Outcome State Fault Refusal → Host.Outcome State Fault Refusal
  | .next t => .next (t.withPrng p)
  | .fault f => .fault f
  | .refused r => .refused r

section Effects

variable {s : State} (p : BitVec 64)

theorem branchIf_withPrng (taken : Bool) (v : Word) :
    branchIf taken v (s.withPrng p) = outcomeWithPrng p (branchIf taken v s) := by
  cases taken <;> rfl

/-- An effect that is a data access, at an address and with an outcome that do not depend on the PRNG state. -/
theorem access_withPrng {i : Instr} {addr : State → Word} {o : State → Host.Outcome State Fault Refusal}
    (hfault : ∀ u, TopFaults u (addr u) → exec i u = .fault .outOfBounds)
    (hok : ∀ u, ¬ TopFaults u (addr u) → exec i u = o u) (haddr : addr (s.withPrng p) = addr s)
    (ho : o (s.withPrng p) = outcomeWithPrng p (o s)) : exec i (s.withPrng p) = outcomeWithPrng p (exec i s) := by
  have htop_iff : TopFaults (s.withPrng p) (addr (s.withPrng p)) ↔ TopFaults s (addr s) := by rw [haddr]; rfl
  by_cases htop : TopFaults s (addr s)
  · rw [hfault s htop, hfault _ (htop_iff.2 htop), outcomeWithPrng]
  · rw [hok s htop, hok _ (mt htop_iff.1 htop), ho]

/-- The default handler does not see the PRNG state (45_system.md R253). -/
theorem defaultHandler_withPrng :
    defaultHandler (s.withPrng p) = ((defaultHandler s).1.withPrng p, (defaultHandler s).2) := by
  by_cases h0 : s.reg .ra = 0
  · rw [defaultHandler_read h0, defaultHandler_read (s := s.withPrng p) h0]
    rfl
  by_cases h1 : s.reg .ra = 1
  · rw [defaultHandler_write h1, defaultHandler_write (s := s.withPrng p) h1]
    rfl
  · rw [defaultHandler_other h0 h1, defaultHandler_other (s := s.withPrng p) h0 h1]

/-- No instruction but `RAND`, and but `SYS` under a registered handler, sees or changes the PRNG state. -/
theorem exec_withPrng {i : Instr} (hrand : i ≠ .rand) (hsys : i = .sys → s.sys = .default) :
    exec i (s.withPrng p) = outcomeWithPrng p (exec i s) := by
  cases i with
  | rand => exact absurd rfl hrand
  | sys =>
    have hdefault := hsys rfl
    rw [exec_sys, exec_sys, callHandler_default hdefault, callHandler_default (s := s.withPrng p) hdefault,
      defaultHandler_withPrng]
    rfl
  | nop | neg | addr | addi | mulr | muli | andr | andi | orr | ori | xorr | xori | shrr | shri | not | movr | movi
  | hlt => rfl
  | jei _ _ v | jni _ _ v | jgi _ _ v | jzi _ v => exact branchIf_withPrng p _ v
  | ld => exact access_withPrng p (fun _ => exec_ld_of_topFaults) (fun _ => exec_ld_of_not_topFaults) rfl rfl
  | st => exact access_withPrng p (fun _ => exec_st_of_topFaults) (fun _ => exec_st_of_not_topFaults) rfl rfl
  | call => exact access_withPrng p (fun _ => exec_call_of_topFaults) (fun _ => exec_call_of_not_topFaults) rfl rfl
  | ret => exact access_withPrng p (fun _ => exec_ret_of_topFaults) (fun _ => exec_ret_of_not_topFaults) rfl rfl
  | pop => exact access_withPrng p (fun _ => exec_pop_of_topFaults) (fun _ => exec_pop_of_not_topFaults) rfl rfl
  | push => exact access_withPrng p (fun _ => exec_push_of_topFaults) (fun _ => exec_push_of_not_topFaults) rfl rfl
  | pusi => exact access_withPrng p (fun _ => exec_pusi_of_topFaults) (fun _ => exec_pusi_of_not_topFaults) rfl rfl

/-- An instruction that does not see the PRNG state leaves it: put in place, a state's own PRNG state stays. -/
theorem exec_next_prng {i : Instr} (hrand : i ≠ .rand) (hsys : i = .sys → s.sys = .default) {t : State}
    (h : exec i s = .next t) : t.prng = s.prng := by
  have hsame := exec_withPrng s.prng hrand hsys
  rw [show s.withPrng s.prng = s from rfl, h, outcomeWithPrng] at hsame
  injection hsame with ht
  rw [ht, State.withPrng_prng]

end Effects

end Sys2Proof.Machine

namespace Sys2Proof.Proofs
open Sys2Proof.Machine

/-- Settles O48: both clauses are `exec_withPrng` at the outcome given (10_state.md R27, 45_system.md R253). -/
theorem onlyRandUsesPrng : Obligations.OnlyRandUsesPrng := by
  unfold Obligations.OnlyRandUsesPrng
  intro i s p hrand hsys
  have hother := exec_withPrng p hrand hsys
  refine ⟨fun t ht => ⟨exec_next_prng hrand hsys ht, ?_⟩, fun f hf => ?_⟩
  · rw [ht] at hother
    exact hother
  · rw [hf] at hother
    exact hother

end Sys2Proof.Proofs
end

section
/-!
SUPPORT. The host operations (60_exceptions.md R370): what each does on a VM that is not `Sleeping`, that each keeps the
canonical form of memory, what `write_mem` and `read_mem` do (20_memory.md R60), and the settling of the obligations
about them.
-/
namespace Sys2Proof.Machine

/-! ## The lifecycle guard (60_exceptions.md R370) -/

section Guard

variable {s : State} (h : s.life ≠ .sleeping)
include h

theorem writeMem_of_not_sleeping (addr : Word) (bytes : List Byte) : writeMem addr bytes s = .error .invalidState :=
  if_pos h

theorem readMem_of_not_sleeping (addr : Word) (len : Nat) : readMem addr len s = .error .invalidState := if_pos h

theorem load_of_not_sleeping (p : ImageParams) (src : ByteSource) : load p src s = .error .invalidState := if_pos h

theorem registerHandler_of_not_sleeping (hd : Handler) : registerHandler hd s = .error .invalidState := if_pos h

theorem dumpContext_of_not_sleeping (window : Nat) : dumpContext window s = .error .invalidState := if_pos h

theorem destroy_of_not_sleeping : destroy s = .error .invalidState := if_pos h

theorem hostStep_of_not_sleeping (op : HostOp) : hostStep op s = (.failed .invalidState, s) := by
  cases op with
  | writeMem addr bytes => rw [hostStep, writeMem_of_not_sleeping h, afterWrite]
  | readMem addr len => rw [hostStep, readMem_of_not_sleeping h]
  | putCode addr code => rw [hostStep, putCode_of_not_sleeping addr code h, afterWrite]
  | load p src => rw [hostStep, load_of_not_sleeping h]
  | registerHandler hd => rw [hostStep, registerHandler_of_not_sleeping h, afterWrite]
  | dumpContext window => rw [hostStep, dumpContext_of_not_sleeping h]
  | destroy => rw [hostStep, destroy_of_not_sleeping h, afterWrite]

end Guard

/-! ## The canonical form of memory -/

theorem State.wf_writeSections (secs : List (Word × List Byte)) : ∀ s : State, s.Inv → (s.writeSections secs).Inv := by
  induction secs with
  | nil => exact fun _ h => h
  | cons sec secs ih => exact fun s h => ih _ (State.wf_setBytes sec.2 s sec.1 h)

theorem State.wf_commitImage {s : State} (h : s.Inv) (img : Image) : (s.commitImage img).Inv :=
  State.wf_writeSections img.sections s h

section Invariant

variable {s t : State} (hinv : s.Inv)
include hinv

theorem writeMem_inv {addr : Word} {bytes : List Byte} (h : writeMem addr bytes s = .ok t) : t.Inv := by
  unfold writeMem at h
  split_ifs at h
  cases h
  exact State.wf_setBytes bytes s addr hinv

theorem putCode_inv {addr : Word} {code : List RawInstr} (h : putCode addr code s = .ok t) : t.Inv := by
  unfold putCode at h
  split_ifs at h
  cases h
  exact State.wf_setBytes (codeBytes code) s addr hinv

theorem registerHandler_inv {hd : Handler} (h : registerHandler hd s = .ok t) : t.Inv := by
  unfold registerHandler at h
  split_ifs at h
  cases h
  exact hinv

theorem destroy_inv (h : destroy s = .ok t) : t.Inv := by
  unfold destroy at h
  split_ifs at h
  cases h
  exact hinv

theorem load_inv {p : ImageParams} {src rest : ByteSource} (h : load p src s = .ok (t, rest)) : t.Inv := by
  unfold load at h
  split_ifs at h
  split at h
  · cases h
  · cases h
    exact State.wf_commitImage hinv _

theorem afterWrite_inv {r : Except StopReason State} (h : ∀ t : State, r = .ok t → t.Inv) :
    (afterWrite s r).2.Inv := by
  cases r with
  | error e => exact hinv
  | ok t => exact h t rfl

theorem hostStep_load_inv (p : ImageParams) (src : ByteSource) : (hostStep (.load p src) s).2.Inv := by
  rw [hostStep]
  split
  · next t _ h => exact load_inv hinv h
  · exact hinv

theorem hostStep_inv (op : HostOp) : (hostStep op s).2.Inv := by
  cases op with
  | writeMem addr bytes => exact afterWrite_inv hinv fun _ => writeMem_inv hinv
  | readMem addr len => rwa [hostStep_readMem_state]
  | putCode addr code => exact afterWrite_inv hinv fun _ => putCode_inv hinv
  | load p src => exact hostStep_load_inv hinv p src
  | registerHandler hd => exact afterWrite_inv hinv fun _ => registerHandler_inv hinv
  | dumpContext window => rwa [hostStep_dumpContext_state]
  | destroy => exact afterWrite_inv hinv fun _ => destroy_inv hinv

end Invariant

/-! ## `write_mem` and `read_mem` on a `Sleeping` VM (20_memory.md R60) -/

section Bytes

variable {addr : Word} {bytes : List Byte} {len : Nat} {s : State} (h : s.life = .sleeping)
include h

theorem writeMem_of_beyond (hb : addr.toNat + bytes.length ≥ 0x10000) : writeMem addr bytes s = .error .outOfBounds := by
  rw [writeMem, if_neg (not_not.2 h), if_pos hb]

theorem writeMem_of_within (hb : addr.toNat + bytes.length < 0x10000) :
    writeMem addr bytes s = .ok (s.setBytes addr bytes) := by
  rw [writeMem, if_neg (not_not.2 h), if_neg (Nat.not_le.2 hb)]

theorem readMem_of_beyond (hb : addr.toNat + len ≥ 0x10000) : readMem addr len s = .error .outOfBounds := by
  rw [readMem, if_neg (not_not.2 h), if_pos hb]

theorem readMem_of_within (hb : addr.toNat + len < 0x10000) : readMem addr len s = .ok (s.bytes addr len) := by
  rw [readMem, if_neg (not_not.2 h), if_neg (Nat.not_le.2 hb)]

end Bytes

@[simp] theorem State.length_bytes (s : State) (n : Nat) : ∀ a : Word, (s.bytes a n).length = n := by
  induction n with
  | zero => exact fun _ => rfl
  | succ n ih => intro a; rw [State.bytes, List.length_cons, ih]

/-- The `k`-th byte read stands `k` above the address of the read. -/
theorem State.getElem?_bytes (s : State) {n : Nat} : ∀ {k : Nat} (a : Word), k < n →
    (s.bytes a n)[k]? = some (s.byte (a + BitVec.ofNat 16 k)) := by
  induction n with
  | zero => exact fun _ hk => absurd hk (Nat.not_lt_zero _)
  | succ n ih =>
    intro k a hk
    cases k with
    | zero => rw [State.bytes, List.getElem?_cons_zero, BitVec.add_zero]
    | succ k =>
      have haddr : a + 1 + BitVec.ofNat 16 k = a + BitVec.ofNat 16 (k + 1) := by bv_omega
      rw [State.bytes, List.getElem?_cons_succ, ih (a + 1) (Nat.lt_of_succ_lt_succ hk), haddr]

end Sys2Proof.Machine

namespace Sys2Proof.Proofs
open Sys2Proof.Machine

/-- Settles O12: each operation that succeeds writes bytes or none, and one that fails leaves the VM as it was
(60_exceptions.md R361). -/
theorem hostOpsKeepInvariant : Obligations.HostOpsKeepInvariant := by
  unfold Obligations.HostOpsKeepInvariant
  exact fun op _ hinv => hostStep_inv hinv op

/-- Settles O49: the guard of each operation, and that of `execute` (60_exceptions.md R370, 40_cycle.md R128). -/
theorem lifecycleGuardsEveryOperation : Obligations.LifecycleGuardsEveryOperation := by
  unfold Obligations.LifecycleGuardsEveryOperation
  exact fun s hlife => ⟨hostStep_of_not_sleeping hlife, execute_of_not_sleeping hlife⟩

/-- Settles O55: the guard and the bound of each of the two, the bytes written by `State.byte_setBytes` and the bytes
read by `State.getElem?_bytes` (20_memory.md R60). -/
theorem writeMemAndReadMem : Obligations.WriteMemAndReadMem := by
  unfold Obligations.WriteMemAndReadMem
  refine ⟨fun addr bytes s hinv hlife => ⟨writeMem_of_beyond hlife, fun hb => ?write⟩,
    fun addr len s hlife => ⟨readMem_of_beyond hlife, fun hb => ?read⟩,
    fun addr bytes len s hlife => ⟨writeMem_of_not_sleeping hlife addr bytes, readMem_of_not_sleeping hlife addr len⟩⟩
  case write =>
    obtain ⟨hregs, hcontrol⟩ := State.setBytes_frame bytes s addr
    exact ⟨_, writeMem_of_within hlife hb, fun a => State.byte_setBytes bytes s addr a hinv hb.le, hregs, hcontrol⟩
  case read =>
    exact ⟨_, readMem_of_within hlife hb, State.length_bytes s len addr, fun k hk => State.getElem?_bytes s addr hk⟩

end Sys2Proof.Proofs
end

section
/-!
SUPPORT. The bit-per-character codec (47_image_loader.md R320 to R323): the characters of a byte give it back, a run of
characters decodes byte by byte, and the settling of the obligation about the codec.
-/
namespace Sys2Proof.Machine

variable (p : ImageParams)

/-! ## One character -/

/-- The two cases of a letter lie 0x20 apart (47_image_loader.md R320). -/
theorem bitChar_true_ne_false : bitChar p true ≠ bitChar p false := by
  have hletter := p.letter.isLt
  have upper_ne_lower : BitVec.ofNat 8 (0x41 + p.letter.val) ≠ BitVec.ofNat 8 (0x61 + p.letter.val) := by
    intro heq
    have hnat := congrArg BitVec.toNat heq
    simp only [BitVec.toNat_ofNat] at hnat
    omega
  unfold bitChar
  cases p.oneCase with
  | upper => exact upper_ne_lower
  | lower => exact upper_ne_lower.symm

theorem charBit_bitChar (bit : Bool) : charBit p (bitChar p bit) = some bit := by
  cases bit with
  | false => rw [charBit, if_neg (bitChar_true_ne_false p).symm, if_pos rfl]
  | true => rw [charBit, if_pos rfl]

theorem charBit_eq_none {c : Byte} (h1 : c ≠ bitChar p true) (h0 : c ≠ bitChar p false) : charBit p c = none := by
  rw [charBit, if_neg h1, if_neg h0]

/-! ## One byte -/

/-- A byte with one more bit at its low end (47_image_loader.md R321). -/
def shiftIn (b : Byte) (bit : Bool) : Byte := (b <<< 1) ||| (if bit then 1 else 0)

/-- The bits of a byte, most significant first (47_image_loader.md R322). -/
def byteBits (b : Byte) : List Bool :=
  [b.getLsbD 7, b.getLsbD 6, b.getLsbD 5, b.getLsbD 4, b.getLsbD 3, b.getLsbD 2, b.getLsbD 1, b.getLsbD 0]

theorem encodeByte_eq_map (b : Byte) : encodeByte p b = (byteBits b).map (bitChar p) := rfl

/-- Eight bits shifted in push out every bit that was there, so they are the byte. -/
theorem foldl_shiftIn_byteBits (b : Byte) : (byteBits b).foldl shiftIn 0 = b := by
  revert b
  decide

theorem decodeByteFrom_map_bitChar (bits : List Bool) : ∀ b : Byte,
    decodeByteFrom p b (bits.map (bitChar p)) = .ok (bits.foldl shiftIn b) := by
  induction bits with
  | nil => exact fun _ => rfl
  | cons bit bits ih =>
    intro b
    rw [List.map_cons, decodeByteFrom, charBit_bitChar]
    exact ih (shiftIn b bit)

theorem decodeByteFrom_encodeByte (b : Byte) : decodeByteFrom p 0 (encodeByte p b) = .ok b := by
  rw [encodeByte_eq_map, decodeByteFrom_map_bitChar, foldl_shiftIn_byteBits]

/-- The codec has one way to fail (47_image_loader.md R321). -/
theorem eq_decodeError_of_decodeByteFrom {e : StopReason} {cs : List Byte} : ∀ {b : Byte},
    decodeByteFrom p b cs = .error e → e = .decodeError := by
  induction cs with
  | nil => exact nofun
  | cons c cs ih =>
    intro b h
    rw [decodeByteFrom] at h
    split at h
    · cases h
      rfl
    · exact ih h

theorem decodeByteFrom_of_invalid_mem {c : Byte} (hc : charBit p c = none) {cs : List Byte} : ∀ (b : Byte),
    c ∈ cs → decodeByteFrom p b cs = .error .decodeError := by
  induction cs with
  | nil => exact nofun
  | cons x cs ih =>
    intro b hmem
    rw [decodeByteFrom]
    split
    · rfl
    · next bit hx =>
      refine ih _ ((List.mem_cons.1 hmem).resolve_left ?_)
      rintro rfl
      rw [hc] at hx
      cases hx

/-! ## A run of bytes -/

theorem decodeChars_encodeByte_append {cs bs : List Byte} (b : Byte) (h : decodeChars p cs = .ok bs) :
    decodeChars p (encodeByte p b ++ cs) = .ok (b :: bs) := by
  have hbyte := decodeByteFrom_encodeByte p b
  simp only [encodeByte, List.cons_append, List.nil_append] at hbyte ⊢
  rw [decodeChars, hbyte, h]

theorem decodeChars_encodeChars (bs : List Byte) : decodeChars p (encodeChars p bs) = .ok bs := by
  induction bs with
  | nil => rfl
  | cons b bs ih => exact decodeChars_encodeByte_append p b ih

theorem length_encodeChars (bs : List Byte) : (encodeChars p bs).length = 8 * bs.length := by
  induction bs with
  | nil => rfl
  | cons b bs ih =>
    rw [encodeChars, List.length_append, ih, List.length_cons, show (encodeByte p b).length = 8 from rfl]
    omega

/-- A group fails the run if an invalid character stands in it; otherwise the rest of the run decides. -/
theorem decodeChars_group_of_invalid_mem {c c0 c1 c2 c3 c4 c5 c6 c7 : Byte} {rest : List Byte}
    (hc : charBit p c = none) (hrest : c ∈ rest → decodeChars p rest = .error .decodeError)
    (hmem : c ∈ c0 :: c1 :: c2 :: c3 :: c4 :: c5 :: c6 :: c7 :: rest) :
    decodeChars p (c0 :: c1 :: c2 :: c3 :: c4 :: c5 :: c6 :: c7 :: rest) = .error .decodeError := by
  rw [decodeChars]
  cases hgroup : decodeByteFrom p 0 [c0, c1, c2, c3, c4, c5, c6, c7] with
  | error e => rw [eq_decodeError_of_decodeByteFrom p hgroup]
  | ok b =>
    have hnot : c ∉ [c0, c1, c2, c3, c4, c5, c6, c7] := fun h => by
      rw [decodeByteFrom_of_invalid_mem p hc 0 h] at hgroup
      cases hgroup
    have hin_rest : c ∈ rest := ((List.mem_append (s := [c0, c1, c2, c3, c4, c5, c6, c7])).1 hmem).resolve_left hnot
    rw [hrest hin_rest]

theorem decodeChars_of_invalid_mem {c : Byte} (hc : charBit p c = none) (cs : List Byte) (hmem : c ∈ cs) :
    decodeChars p cs = .error .decodeError := by
  induction cs using decodeChars.induct p with
  | case1 => cases hmem
  | case2 _ _ _ _ _ _ _ _ rest e hgroup =>
    rw [decodeChars, hgroup, eq_decodeError_of_decodeByteFrom p hgroup]
  | case3 _ _ _ _ _ _ _ _ _ _ _ _ _ ih | case4 _ _ _ _ _ _ _ _ _ _ _ _ _ ih =>
    exact decodeChars_group_of_invalid_mem p hc ih hmem
  | case5 cs hnil hgroup => rw [decodeChars] <;> assumption

end Sys2Proof.Machine

namespace Sys2Proof.Proofs
open Sys2Proof.Machine

/-- Settles O57: byte by byte both ways (47_image_loader.md R320 to R322, 90_conflicts.md C7). -/
theorem codecRoundTrip : Obligations.CodecRoundTrip := by
  unfold Obligations.CodecRoundTrip
  exact fun p => ⟨fun bs => ⟨decodeChars_encodeChars p bs, length_encodeChars p bs⟩,
    fun cs c hmem h1 h0 => decodeChars_of_invalid_mem p (charBit_eq_none p h1 h0) cs hmem⟩

end Sys2Proof.Proofs
end

section
/-!
SUPPORT. Loading the encoding of an image (47_image_loader.md R324 to R331): the loader reads back each part the encoder
wrote and stops there, what the commit leaves, and the settling of the obligation about it.
-/
namespace Sys2Proof.Machine

/-! ## Reading encoded bytes -/

/-- A source that gives these characters and then the rest of `src` (47_image_loader.md R326). -/
def ByteSource.prepend (src : ByteSource) (cs : List Byte) : ByteSource := { src with chars := cs ++ src.chars }

theorem ByteSource.prepend_append (src : ByteSource) (cs cs' : List Byte) :
    src.prepend (cs ++ cs') = (src.prepend cs').prepend cs := by
  simp [ByteSource.prepend]

theorem ByteSource.read_prepend (src : ByteSource) (cs : List Byte) :
    (src.prepend cs).read cs.length = .ok (cs, src) := by
  simp [ByteSource.read, ByteSource.prepend]

variable (p : ImageParams)

theorem encodeChars_append (bs bs' : List Byte) :
    encodeChars p (bs ++ bs') = encodeChars p bs ++ encodeChars p bs' := by
  induction bs with
  | nil => rfl
  | cons b bs ih => rw [List.cons_append, encodeChars, encodeChars, ih, List.append_assoc]

theorem readDecoded_prepend (src : ByteSource) (bs : List Byte) :
    readDecoded p bs.length (src.prepend (encodeChars p bs)) = .ok (bs, src) := by
  rw [readDecoded, ← length_encodeChars p bs, ByteSource.read_prepend]
  simp only [decodeChars_encodeChars]

theorem fieldOf_bytes (v : Word) : fieldOf (lowByte v) (highByte v) = v := by
  unfold fieldOf lowByte highByte
  ext i hi
  simp
  grind

/-! ## The parts of an image -/

/-- The row of the section table for a section (47_image_loader.md R324). -/
def tableRow (sec : Word × List Byte) : Word × Word := (sec.1, BitVec.ofNat 16 sec.2.length)

theorem readTable_prepend (src : ByteSource) (secs : List (Word × List Byte)) :
    readTable p secs.length (src.prepend (encodeChars p (tableBytes secs))) = .ok (secs.map tableRow, src) := by
  induction secs with
  | nil => rfl
  | cons sec secs ih =>
    have hrow := readDecoded_prepend p (src.prepend (encodeChars p (tableBytes secs)))
      (fieldBytes sec.1 ++ fieldBytes (BitVec.ofNat 16 sec.2.length))
    rw [tableBytes, encodeChars_append, ByteSource.prepend_append, List.length_cons, readTable]
    simp only [fieldBytes, List.cons_append, List.nil_append, List.length_cons, List.length_nil] at hrow ⊢
    rw [hrow]
    simp only [ih, fieldOf_bytes]
    rfl

/-- Each section's length fits its field and its bound holds, so every section is read (47_image_loader.md R328). -/
theorem readSections_prepend (src : ByteSource) {secs : List (Word × List Byte)}
    (hbound : ∀ sec ∈ secs, sec.1.toNat + sec.2.length < 0x10000) :
    readSections p (secs.map tableRow) (src.prepend (encodeChars p (dataBytes secs))) = .ok (secs, src) := by
  induction secs with
  | nil => rfl
  | cons sec secs ih =>
    have hsec := hbound sec List.mem_cons_self
    have hlen : (BitVec.ofNat 16 sec.2.length).toNat = sec.2.length := Nat.mod_eq_of_lt (by omega)
    rw [dataBytes, encodeChars_append, ByteSource.prepend_append, List.map_cons, tableRow, readSections, hlen,
      readDecoded_prepend]
    simp only [if_neg (Nat.not_le.2 hsec), ih fun s hs => hbound s (List.mem_cons_of_mem _ hs)]

theorem readImage_prepend (src : ByteSource) {img : Image} (hcount : img.sections.length < 0x10000)
    (hbound : ∀ sec ∈ img.sections, sec.1.toNat + sec.2.length < 0x10000) :
    readImage p (src.prepend (encodeImage p img)) = .ok (img, src) := by
  have hheader := readDecoded_prepend p
    ((src.prepend (encodeChars p (dataBytes img.sections))).prepend (encodeChars p (tableBytes img.sections)))
    (fieldBytes p.magic ++ fieldBytes p.version ++ fieldBytes img.entry
      ++ fieldBytes (BitVec.ofNat 16 img.sections.length))
  have hlen : (BitVec.ofNat 16 img.sections.length).toNat = img.sections.length := Nat.mod_eq_of_lt hcount
  rw [encodeImage, imageBytes, encodeChars_append, encodeChars_append, ByteSource.prepend_append,
    ByteSource.prepend_append, readImage]
  simp only [fieldBytes, List.cons_append, List.nil_append, List.length_cons, List.length_nil] at hheader ⊢
  rw [hheader]
  simp only [fieldOf_bytes, hlen, readTable_prepend, readSections_prepend p src hbound, ne_eq, not_true_eq_false,
    if_false]

/-! ## The commit -/

theorem State.writeSections_frame (secs : List (Word × List Byte)) : ∀ s : State,
    (s.writeSections secs).regs = s.regs ∧ SameControl s (s.writeSections secs) := by
  induction secs with
  | nil => exact fun s => ⟨rfl, rfl, rfl, rfl, rfl, rfl, rfl⟩
  | cons sec secs ih =>
    intro s
    obtain ⟨hregs, hcontrol⟩ := State.setBytes_frame sec.2 s sec.1
    obtain ⟨hregs', hcontrol'⟩ := ih (s.setBytes sec.1 sec.2)
    exact ⟨hregs'.trans hregs, hcontrol.trans hcontrol'⟩

/-- The sections are written in order, a later one over an earlier one (47_image_loader.md R329). -/
theorem State.byte_writeSections {secs : List (Word × List Byte)}
    (hbound : ∀ sec ∈ secs, sec.1.toNat + sec.2.length < 0x10000) (a : Word) : ∀ {s : State}, s.Inv →
    (s.writeSections secs).byte a = overlay secs a (s.byte a) := by
  induction secs with
  | nil => exact fun _ => rfl
  | cons sec secs ih =>
    intro s hinv
    have hsec := hbound sec List.mem_cons_self
    rw [State.writeSections, ih (fun s hs => hbound s (List.mem_cons_of_mem _ hs)) (State.wf_setBytes _ s _ hinv),
      State.byte_setBytes sec.2 s sec.1 a hinv hsec.le, overlay]

theorem State.commitImage_reg_ne (s : State) (img : Image) {q : Reg} (hq : q ≠ .ip) :
    (s.commitImage img).reg q = s.reg q := by
  obtain ⟨hregs, -⟩ := State.writeSections_frame img.sections s
  rw [State.commitImage, State.reg_setReg_ne _ _ _ _ hq, State.reg, hregs, State.reg]

theorem load_of_readImage {p : ImageParams} {src rest : ByteSource} {img : Image} {s : State}
    (hlife : s.life = .sleeping) (h : readImage p src = .ok (img, rest)) :
    load p src s = .ok (s.commitImage img, rest) := by
  rw [load, if_neg (not_not.2 hlife), h]

end Sys2Proof.Machine

namespace Sys2Proof.Proofs
open Sys2Proof.Machine

/-- Settles O58: the loader reads the image back and leaves the following characters, and the commit overlays its
sections (47_image_loader.md R324, R326, R329 to R331). -/
theorem loadOfEncodedImage : Obligations.LoadOfEncodedImage := by
  unfold Obligations.LoadOfEncodedImage
  intro p img extra ending s hinv hlife hcount hbound
  have hread := readImage_prepend p { chars := extra, ending := ending } hcount hbound
  exact ⟨_, load_of_readImage hlife hread, State.reg_setReg_self _ _ _, fun q => State.commitImage_reg_ne s img,
    (State.writeSections_frame img.sections s).2, fun a => State.byte_writeSections hbound a hinv⟩

end Sys2Proof.Proofs
end
